-- ==== Sys2Proof/Word.lean ====
section
/-! DEFINITION. The fixed-width values of the hardware (spec/00_scope.md section 4, rule R5). -/

namespace Sys2Proof

/-- One code unit or data byte, `CUW` = 8 bits (R5, R42). -/
abbrev Byte := BitVec 8

/-- One symbol value, `SYMW` = 5 bits (R5, R61). -/
abbrev SymVal := BitVec 5

/-- One bit accumulator, `ACCW` = 12 bits (R5, R12, R17). -/
abbrev Acc := BitVec 12

/-- A length, capacity or index of `W` bits (R5). -/
abbrev Idx (W : Nat) := BitVec W

/-- A `REQ` or `RESULT` register, `RW` = `W` + 1 bits (R5, R82). -/
abbrev Count (W : Nat) := BitVec (W + 1)

end Sys2Proof
end

