-- ==== Sys2Proof/Config.lean ====
section
/-! DEFINITION. What is fixed for one build of the hardware: the two blocks, the four address spaces, the default
of the width `W` (spec/00_scope.md section 4), and the one free value of the model. -/

namespace Sys2Proof

/-- The two blocks of the hardware (R1). -/
inductive Block where
  | enc
  | dec
deriving DecidableEq, Repr

/-- The four address spaces, two private to each block (R25, R40). -/
inductive Space where
  | encIbuf
  | encObuf
  | decIbuf
  | decObuf
deriving DecidableEq, Repr

/-- The block a space belongs to (R40). -/
def Space.block : Space → Block
  | .encIbuf => .enc
  | .encObuf => .enc
  | .decIbuf => .dec
  | .decObuf => .dec

/-- Whether a space is the input buffer of its block (R40). -/
def Space.isInput : Space → Bool
  | .encIbuf => true
  | .encObuf => false
  | .decIbuf => true
  | .decObuf => false

/-- The default of the parameter `W` (R5, D3). `W` itself is an argument: everything is written for every `W`, and a `State` says
which `W` its build has (notes/assumptions/1.md). -/
abbrev Config.defaultW : Nat := 32

/-- FREE VALUE: what a buffer cell that nothing has written since power-up holds (R53, U9 `any value`). It depends on the
cell alone, so that two reads of one cell agree (R47). DESIGN CHOICE, safe: notes/assumptions/2.md. -/
opaque Config.unwrittenByte : Space → Nat → Byte

end Sys2Proof
end

