-- ==== Sys2Proof/Syntax.lean ====
section
/-! DEFINITION. The commands, one constructor per row of spec/opcode_table.json (R2, R72), and the host's notation for
them (R75). -/

namespace Sys2Proof

/-- A command: the operation of one block with its two fields `len` and `cap`, unsigned integers (R31, R70, R71). All four
carry a `cap` field; `ENCLEN` and `DATALEN` ignore it (R31, U16). Whether the fields fit a build of width `W` is
`Instr.wellFormed`. -/
inductive Instr where
  | enclen (len cap : Nat)
  | encode (len cap : Nat)
  | datalen (len cap : Nat)
  | decode (len cap : Nat)
deriving DecidableEq, Repr

/-- The four mnemonics of the opcode map (R72). -/
inductive Mnemonic where
  | enclen
  | encode
  | datalen
  | decode
deriving DecidableEq, Repr

/-- A command as a host script writes it, `<BLOCK>.<MNEMONIC> len=<n>, cap=<c>` (R75). -/
structure CommandLine where
  block : Block
  mnemonic : Mnemonic
  len : Nat
  cap : Option Nat
deriving DecidableEq, Repr

end Sys2Proof
end

