-- ==== Sys2Proof/WellFormed.lean ====
section
/-! DEFINITION. Which commands a build of width `W` has, and which lines of R75 stand for one of them. -/

namespace Sys2Proof

/-- The `len` field of a command. -/
def Instr.len : Instr → Nat
  | .enclen len _ => len
  | .encode len _ => len
  | .datalen len _ => len
  | .decode len _ => len

/-- The `cap` field of a command. -/
def Instr.cap : Instr → Nat
  | .enclen _ cap => cap
  | .encode _ cap => cap
  | .datalen _ cap => cap
  | .decode _ cap => cap

/-- `len` fits its `W`-bit field (R70, R71). -/
def Instr.lenOk (W : Nat) (i : Instr) : Bool := decide (i.len < 2 ^ W)

/-- `cap` fits its `W`-bit field (R70, R71). -/
def Instr.capOk (W : Nat) (i : Instr) : Bool := decide (i.cap < 2 ^ W)

/-- A command of a build of width `W`. Every value of every field is defined (R72). -/
def Instr.wellFormed (W : Nat) (i : Instr) : Bool := i.lenOk W && i.capOk W

/-- The block that offers an operation (R72). -/
def Mnemonic.block : Mnemonic → Block
  | .enclen => .enc
  | .encode => .enc
  | .datalen => .dec
  | .decode => .dec

/-- Whether an operation uses its `cap` field (R72, column "operands used"). -/
def Mnemonic.usesCap : Mnemonic → Bool
  | .enclen => false
  | .encode => true
  | .datalen => false
  | .decode => true

/-- The block named on the line is the one that offers the operation (R72). -/
def CommandLine.blockOk (c : CommandLine) : Bool := c.mnemonic.block == c.block

/-- `len` fits its `W`-bit field (R70, R71). -/
def CommandLine.lenOk (W : Nat) (c : CommandLine) : Bool := decide (c.len < 2 ^ W)

/-- `cap` stands on the line exactly when the operation uses it (R75: omitted for `ENCLEN` and `DATALEN`). -/
def CommandLine.capStated (c : CommandLine) : Bool := c.cap.isSome == c.mnemonic.usesCap

/-- `cap`, where it stands, fits its `W`-bit field (R70, R71). -/
def CommandLine.capOk (W : Nat) (c : CommandLine) : Bool := decide (c.cap.getD 0 < 2 ^ W)

/-- A command line stands for a command of a build of width `W`. -/
def CommandLine.wellFormed (W : Nat) (c : CommandLine) : Bool :=
  c.blockOk && c.lenOk W && c.capStated && c.capOk W

end Sys2Proof
end

