-- ==== Sys2Proof/Decode.lean ====
section
/-! DEFINITION. The command word (R70, R71), the opcode map (R72) both ways, for every width `W`, and the host's table word. -/

namespace Sys2Proof

/-- A command word: `op` = bit `2W`, `len` = bits `[2W-1 : W]`, `cap` = bits `[W-1 : 0]` (R70, R71). -/
abbrev CmdWord (W : Nat) := BitVec (2 * W + 1)

/-- Why a number is no command word, or a line no command. -/
inductive DecodeError where
  /-- Bits stand above the command word. Safe: nothing is run. -/
  | wordTooWide
  /-- The line fails `CommandLine.wellFormed`. Safe: nothing is run. -/
  | illFormedLine
deriving DecidableEq, Repr

/-- Field `len` of a command word (R70, R71). -/
def cmdLen {W : Nat} (w : CmdWord W) : Idx W := w.extractLsb' W W

/-- Field `cap` of a command word (R70, R71). -/
def cmdCap {W : Nat} (w : CmdWord W) : Idx W := w.extractLsb' 0 W

/-- Field `op` of a command word (R70, R71). -/
def cmdOp {W : Nat} (w : CmdWord W) : Bool := w.getLsbD (2 * W)

/-- The command that a word presented on a block's command port stands for. Total: there is no illegal, reserved or hint
encoding (R72). -/
def decodeCmd {W : Nat} (b : Block) (w : CmdWord W) : Instr :=
  match b, cmdOp w with
  | .enc, false => .enclen (cmdLen w).toNat (cmdCap w).toNat
  | .enc, true => .encode (cmdLen w).toNat (cmdCap w).toNat
  | .dec, false => .datalen (cmdLen w).toNat (cmdCap w).toNat
  | .dec, true => .decode (cmdLen w).toNat (cmdCap w).toNat

/-- The same on any number: a number with a bit at or above `2W + 1` is no command word. -/
def decodeNumber (W : Nat) (b : Block) (n : Nat) : Except DecodeError Instr :=
  if n < 2 ^ (2 * W + 1) then .ok (decodeCmd b (BitVec.ofNat (2 * W + 1) n)) else .error .wordTooWide

/-- The block whose port takes the command (R72, column "block"). -/
def Instr.block : Instr → Block
  | .enclen _ _ => .enc
  | .encode _ _ => .enc
  | .datalen _ _ => .dec
  | .decode _ _ => .dec

/-- The `op` bit of the command (R72, column "op"). -/
def Instr.op : Instr → Bool
  | .enclen _ _ => false
  | .encode _ _ => true
  | .datalen _ _ => false
  | .decode _ _ => true

/-- The command word with the given three fields (R70, R71). -/
def packCmd {W : Nat} (op : Bool) (len cap : Idx W) : CmdWord W :=
  BitVec.ofNat (2 * W + 1) (op.toNat * 2 ^ (2 * W) + len.toNat * 2 ^ W + cap.toNat)

/-- The word of a well-formed command; it goes to the port of `i.block`. -/
def encodeCmd (W : Nat) (i : Instr) : CmdWord W := packCmd i.op (BitVec.ofNat W i.len) (BitVec.ofNat W i.cap)

/-- The command that a line of a host script stands for; an omitted `cap` is sent as 0 (R75). -/
def assemble (W : Nat) (c : CommandLine) : Except DecodeError Instr :=
  if c.wellFormed W then
    match c.mnemonic with
    | .enclen => .ok (.enclen c.len (c.cap.getD 0))
    | .encode => .ok (.encode c.len (c.cap.getD 0))
    | .datalen => .ok (.datalen c.len (c.cap.getD 0))
    | .decode => .ok (.decode c.len (c.cap.getD 0))
  else .error .illFormedLine

/-- A word of spec/opcode_table.json together with the port it goes to. The table gives ENC and DEC rows the same words,
because each block has a port of its own (R72); bit `2W + 1`, just above the word, says which port is meant: 0 ENC, 1 DEC.
DESIGN CHOICE, safe: notes/assumptions/5.md. -/
def splitTableWord (W nbits w : Nat) : Except DecodeError (Block × CmdWord W) :=
  let v := w % 2 ^ nbits
  if v < 2 ^ (2 * W + 2) then
    .ok (if v.testBit (2 * W + 1) then .dec else .enc, BitVec.ofNat (2 * W + 1) v)
  else .error .wordTooWide

/-- The command the decoder reads from a word numbered as spec/opcode_table.json numbers it; the table is for the default `W`. -/
def decodeTableWord (nbits w : Nat) : Option Instr :=
  match splitTableWord Config.defaultW nbits w with
  | .ok (b, word) => some (decodeCmd b word)
  | .error _ => none

end Sys2Proof
end

