-- ==== Sys2Proof/Machine/State.lean ====
section
/-! DEFINITION. The state of the machine: its width `W` (R5), the eleven registers of ENC (R11), the thirteen of DEC (R16), the
four buffers (R40), what the host drives on the command ports (R27), and the model's own list of turns. -/

namespace Sys2Proof.Machine

/-- Values of `STATE` (R11, R16, R20, R73). -/
inductive BlockState where
  | idle
  | busy
  | done
  | error
deriving DecidableEq, Repr

/-- Values of `ERR` (R11, R16, R74). -/
inductive Err where
  | noError
  | invalidCharacter
  | insufficientOutputCapacity
  | boundsFault
deriving DecidableEq, Repr

/-- The exceptions a step can raise, the complete list of R130. -/
inductive Exn where
  | invalidCharacter
  | insufficientOutputCapacity
  | boundsFault
deriving DecidableEq, Repr

/-- Values of `ENC.OP`: `ENCLEN` = 0, `ENCODE` = 1 (R11). -/
inductive EncOp where
  | enclen
  | encode
deriving DecidableEq, Repr

/-- Values of `DEC.OP`: `DATALEN` = 0, `DECODE` = 1 (R16). -/
inductive DecOp where
  | datalen
  | decode
deriving DecidableEq, Repr

/-- Values of `DEC.PHASE`: `SCAN` = 0, `RUN` = 1 (R16). -/
inductive Phase where
  | scan
  | run
deriving DecidableEq, Repr

/-- The three status registers, one set per block (R20). -/
structure Status (W : Nat) where
  state : BlockState
  err : Err
  result : Count W
deriving DecidableEq, Repr

/-- The eleven registers of ENC (R11). -/
structure EncRegs (W : Nat) where
  status : Status W
  op : EncOp
  len : Idx W
  cap : Idx W
  req : Count W
  acc : Acc
  held : BitVec 4
  inIdx : Idx W
  outIdx : Idx W
deriving DecidableEq, Repr

/-- The thirteen registers of DEC (R16). -/
structure DecRegs (W : Nat) where
  status : Status W
  op : DecOp
  len : Idx W
  cap : Idx W
  phase : Phase
  k : Idx W
  req : Count W
  acc : Acc
  bitsrem : BitVec 4
  inIdx : Idx W
  outIdx : Idx W
deriving DecidableEq, Repr

/-- One address space: the cells written since power-up, index and content, indexes strictly rising (R41). -/
abbrev Memory := List Host.Cell

/-- What the host can do, apart from waiting (R10, R75, R150). -/
inductive HostMove (W : Nat) where
  /-- Put a command word on a block's command port and hold it there, `cmd_valid` = 1 (R27, R155). -/
  | drive (b : Block) (w : CmdWord W)
  /-- Take `cmd_valid` of a block back to 0 (R27). -/
  | release (b : Block)
  /-- Store a byte into a buffer cell (R10, R48). -/
  | write (sp : Space) (i : Idx W) (v : Byte)
  /-- Read a buffer cell (R10, R48). -/
  | read (sp : Space) (i : Idx W)
  /-- Read a cell and store what it holds into another, as a host does for the round trip (R143). -/
  | copy (src : Space) (i : Idx W) (dst : Space) (j : Idx W)
  /-- Read `STATE`, `ERR`, `RESULT` of a block (R10, R28). -/
  | readStatus (b : Block)
  /-- `rst` = 1 at an edge of a block (R150). -/
  | reset (b : Block)
deriving DecidableEq, Repr

/-- Who moves next. -/
inductive Turn (W : Nat) where
  /-- A block: its running step, or else the acceptance of the command on its port (R10, R22, R27). -/
  | block (b : Block)
  /-- The host makes a move (R10). -/
  | host (m : HostMove W)
  /-- The host does nothing until the block's `STATE` is not `BUSY` (R75, `WAIT`). -/
  | wait (b : Block)
deriving DecidableEq, Repr

/-- The pair of blocks of a build of width `W` (R1), with everything that acts on it. `turns` is the MODEL's own field: which
agent moves at each coming step is not fixed by the spec (R10: any interleaving), so it is data. DESIGN CHOICE:
notes/assumptions/3.md. `encCmd` and `decCmd` are the inputs of the command ports as the host holds them, `none` for
`cmd_valid` = 0 (R27, notes/assumptions/4.md). -/
structure Codec (W : Nat) where
  enc : EncRegs W
  dec : DecRegs W
  encIbuf : Memory
  encObuf : Memory
  decIbuf : Memory
  decObuf : Memory
  encCmd : Option (CmdWord W)
  decCmd : Option (CmdWord W)
  turns : List (Turn W)
deriving DecidableEq, Repr

/-- The whole machine: the parameter `W` of the build, which no step changes (R5), and its pair of blocks
(notes/assumptions/1.md). -/
structure State where
  W : Nat
  codec : Codec W
deriving DecidableEq, Repr

/-- Why the machine stops with a fault. -/
inductive Fault where
  /-- A `BUSY` block none of whose steps is enabled by R93 or R128. Raised by the running step of a block. No state reached
  from reset is such (R163), so it stops no run of the hardware. Safe: notes/assumptions/7.md. -/
  | noEnabledStep (b : Block)
deriving DecidableEq, Repr

/-- Why the model gives no next state. -/
inductive Refusal where
  /-- Raised by an arm of `exec` whose command has no meaning yet (no arm does). Safe. -/
  | notModelled (mnemonic : String)
  /-- Raised by a host move on a buffer that a `BUSY` block has borrowed (R48, R154; U6 `refuse`). Safe with respect to the
  rules, which give such a system no meaning: notes/assumptions/6.md. -/
  | borrowedBuffer (sp : Space)
deriving DecidableEq, Repr

/-- The answer of one step. -/
abbrev Outcome := Host.Outcome State Fault Refusal

/-- Status registers after reset (R32, R150). -/
def Status.reset (W : Nat) : Status W := ⟨.idle, .noError, 0⟩

/-- Registers of ENC after reset (R11, R32). -/
def EncRegs.reset (W : Nat) : EncRegs W where
  status := Status.reset W
  op := .enclen
  len := 0
  cap := 0
  req := 0
  acc := 0
  held := 0
  inIdx := 0
  outIdx := 0

/-- Registers of DEC after reset (R16, R32): `BITSREM` = 8, `PHASE` = `SCAN`, the rest 0. -/
def DecRegs.reset (W : Nat) : DecRegs W where
  status := Status.reset W
  op := .datalen
  len := 0
  cap := 0
  phase := .scan
  k := 0
  req := 0
  acc := 0
  bitsrem := 8
  inIdx := 0
  outIdx := 0

/-- The pair of blocks right after reset at power-up: both blocks reset (R32), no cell written (R32, R53), no command offered,
no turn chosen (notes/assumptions/12.md). -/
def Codec.reset (W : Nat) : Codec W where
  enc := EncRegs.reset W
  dec := DecRegs.reset W
  encIbuf := []
  encObuf := []
  decIbuf := []
  decObuf := []
  encCmd := none
  decCmd := none
  turns := []

/-- The machine of width `W` right after reset. -/
def State.resetAt (W : Nat) : State := ⟨W, Codec.reset W⟩

/-- The machine of the default width right after reset. -/
def State.reset : State := State.resetAt Config.defaultW

end Sys2Proof.Machine
end

