-- ==== Sys2Proof/Machine/Ops.lean ====
section
/-! DEFINITION. The named operations on the pair of blocks: the cells of a space, the buffers, the ports, error entry (R133), and
the reset of a block (R150). -/

namespace Sys2Proof.Machine

/-- The byte listed for an index; `none` for a cell nothing has written. -/
def Memory.get : Memory → Nat → Option Byte
  | [], _ => none
  | (b, w) :: m, a => if a = b then some w else Memory.get m a

/-- The space after a store of one cell. -/
def Memory.set : Memory → Nat → Byte → Memory
  | [], a, v => [(a, v)]
  | (b, w) :: m, a, v =>
    if a < b then (a, v) :: (b, w) :: m
    else if a = b then (a, v) :: m
    else (b, w) :: Memory.set m a v

/-- Every index lies in `[lo, hi)` and they rise strictly. -/
def Memory.rising (hi : Nat) : Nat → Memory → Bool
  | _, [] => true
  | lo, (a, _) :: m => decide (lo ≤ a) && decide (a < hi) && Memory.rising hi (a + 1) m

/-- The canonical form of a space of `2^W` cells (R41): indexes strictly rising and below `2^W`. An unlisted cell reads as
no value at this level, so no entry can equal it. -/
def Memory.wf (W : Nat) (m : Memory) : Bool := Memory.rising (2 ^ W) 0 m

/-- The contents of a space. -/
def Codec.buf {W : Nat} (c : Codec W) : Space → Memory
  | .encIbuf => c.encIbuf
  | .encObuf => c.encObuf
  | .decIbuf => c.decIbuf
  | .decObuf => c.decObuf

/-- The blocks with the contents of one space replaced. -/
def Codec.setBuf {W : Nat} (c : Codec W) (sp : Space) (m : Memory) : Codec W :=
  match sp with
  | .encIbuf => { c with encIbuf := m }
  | .encObuf => { c with encObuf := m }
  | .decIbuf => { c with decIbuf := m }
  | .decObuf => { c with decObuf := m }

/-- `MemRead(sp:i, 1)` (R42). A cell nothing has written holds a free value (R53, U9). -/
def Codec.readCell {W : Nat} (c : Codec W) (sp : Space) (i : Nat) : Byte :=
  ((c.buf sp).get i).getD (Config.unwrittenByte sp i)

/-- `MemWrite(sp:i, 1, v)` (R42). -/
def Codec.writeCell {W : Nat} (c : Codec W) (sp : Space) (i : Nat) (v : Byte) : Codec W :=
  c.setBuf sp ((c.buf sp).set i v)

/-- The registers of ENC replaced. -/
def Codec.withEnc {W : Nat} (c : Codec W) (r : EncRegs W) : Codec W := { c with enc := r }

/-- The registers of DEC replaced. -/
def Codec.withDec {W : Nat} (c : Codec W) (r : DecRegs W) : Codec W := { c with dec := r }

/-- The turns to come replaced. -/
def Codec.withTurns {W : Nat} (c : Codec W) (ts : List (Turn W)) : Codec W := { c with turns := ts }

/-- What the host holds on a block's command port (R27). -/
def Codec.cmd {W : Nat} (c : Codec W) : Block → Option (CmdWord W)
  | .enc => c.encCmd
  | .dec => c.decCmd

/-- The inputs of a block's command port replaced. -/
def Codec.setCmd {W : Nat} (c : Codec W) (b : Block) (w : Option (CmdWord W)) : Codec W :=
  match b with
  | .enc => { c with encCmd := w }
  | .dec => { c with decCmd := w }

/-- The status registers of a block (R20). -/
def Codec.status {W : Nat} (c : Codec W) : Block → Status W
  | .enc => c.enc.status
  | .dec => c.dec.status

/-- `STATE` of a block is `BUSY`: the block has a step (R22), and its two buffers are borrowed (R48). -/
def Codec.busy {W : Nat} (c : Codec W) (b : Block) : Bool := (c.status b).state == .busy

/-- One store on the output-buffer write port: `ob_we` = 1 with `ob_addr` and `ob_wdata` (R30). -/
structure ObWrite (W : Nat) where
  addr : Idx W
  data : Byte
deriving DecidableEq, Repr

/-- The store that a step makes, or none (`ob_we` = 0). -/
def Codec.applyWrite {W : Nat} (c : Codec W) (sp : Space) (w : Option (ObWrite W)) : Codec W :=
  match w with
  | none => c
  | some w => c.writeCell sp w.addr.toNat w.data

/-- The answer on the input-buffer read port: `ib_rdata` for `ib_addr` when `ib_re` = 1 (R29). With `ib_re` = 0 the port
answers nothing that a step uses; the model hands over 0. -/
def Codec.ibRdata {W : Nat} (c : Codec W) (sp : Space) (addr : Option (Idx W)) : Byte :=
  match addr with
  | none => 0
  | some a => c.readCell sp a.toNat

/-- The `ERR` code of an exception (R74, R130). -/
def Exn.code : Exn → Err
  | .invalidCharacter => .invalidCharacter
  | .insufficientOutputCapacity => .insufficientOutputCapacity
  | .boundsFault => .boundsFault

/-- Error entry, what `raise E()` does to the status registers of the block (R133): `STATE <- ERROR`, `ERR <- code(E)`,
`RESULT <- 0`. Nothing is saved and nothing is vectored. There is no return from it: the next command or reset leaves
`ERROR` (R138). -/
def raise {W : Nat} (e : Exn) : Status W := ⟨.error, e.code, 0⟩

/-- The status after an operation that returned `n` (R20). -/
def finish {W : Nat} (n : Nat) : Status W := ⟨.done, .noError, BitVec.ofNat (W + 1) n⟩

/-- The status of an operation that has just been accepted and goes on (R92, R112). -/
def started {W : Nat} : Status W := ⟨.busy, .noError, 0⟩

/-- `rst` = 1 at an edge of a block (R150, R151): its registers take their reset values; no command is accepted, and no
buffer is touched. -/
def Codec.resetBlock {W : Nat} (c : Codec W) : Block → Codec W
  | .enc => c.withEnc (EncRegs.reset W)
  | .dec => c.withDec (DecRegs.reset W)

/-- The host may store into a space: its block has not borrowed it (R48, R154). -/
def Codec.hostMayWrite {W : Nat} (c : Codec W) (sp : Space) : Bool := !c.busy sp.block

/-- The host may read a space: an output buffer only outside the borrow (R48, R154). Reading an input buffer is not among
what R48 forbids: notes/assumptions/6.md. -/
def Codec.hostMayRead {W : Nat} (c : Codec W) (sp : Space) : Bool := sp.isInput || !c.busy sp.block

end Sys2Proof.Machine
end

