-- ==== Sys2Proof/Machine/Operands.lean ====
section
/-! DEFINITION. The operand computations: the symbol lookup `ALPHA` (R61), the classifier `CLASS` (R63), the two length
formulas (R81, R84), and the bit selections of the encoder (R95, R97) and of the decoder (R115). -/

namespace Sys2Proof.Machine

/-- The alphabet `ABCDEFGHIJKLMNOPQRSTUVWXYZ234567` as code units, by symbol value (R60, R61). The numeric codes are ASCII,
which the spec itself marks as general knowledge (notes/assumptions/11.md). -/
def alphabet : List Byte :=
  [0x41, 0x42, 0x43, 0x44, 0x45, 0x46, 0x47, 0x48] ++ [0x49, 0x4A, 0x4B, 0x4C, 0x4D, 0x4E, 0x4F, 0x50] ++
  [0x51, 0x52, 0x53, 0x54, 0x55, 0x56, 0x57, 0x58] ++ [0x59, 0x5A, 0x32, 0x33, 0x34, 0x35, 0x36, 0x37]

/-- `ALPHA(v)` (R61). -/
def alpha (v : SymVal) : Byte := alphabet.getD v.toNat 0

/-- `PADCHAR`, the code unit of `=` (R5, R60). -/
def padChar : Byte := 0x3D

/-- The three outcomes of `CLASS` (R63). -/
inductive CharClass where
  | sym (v : SymVal)
  | pad
  | invalid
deriving DecidableEq, Repr

/-- `CLASS(c)` (R63). -/
def classify (c : Byte) : CharClass :=
  if 0x41 ≤ c.toNat ∧ c.toNat ≤ 0x5A then .sym (BitVec.ofNat 5 (c.toNat - 0x41))
  else if 0x32 ≤ c.toNat ∧ c.toNat ≤ 0x37 then .sym (BitVec.ofNat 5 (c.toNat - 0x32 + 26))
  else if c = padChar then .pad
  else .invalid

/-- `enclen(n)`, exact (R81, R82). -/
def enclen (n : Nat) : Nat :=
  let bits := n * 8
  let bits := if bits % 5 ≠ 0 then bits + (5 - bits % 5) else bits
  bits / 5

/-- `floor(5k/8)`, exact, for `k` meaningful symbols (R84). -/
def dataLen (k : Nat) : Nat := 5 * k / 8

/-- The accumulator of ENC after a LOAD of `b`: `((ACC << 8) | b)[11:0]` (R94). -/
def encPushByte (acc : Acc) (b : Byte) : Acc := (acc <<< 8) ||| b.setWidth 12

/-- The symbol value of an EMIT: `(ACC >> (HELD - 5)) & 0x1F` (R95). -/
def encTopSymbol (acc : Acc) (held : Nat) : SymVal := (acc >>> (held - 5)).setWidth 5

/-- The symbol value of a FLUSH: `(ACC << (5 - HELD)) & 0x1F` (R97). -/
def encLastSymbol (acc : Acc) (held : Nat) : SymVal := (acc <<< (5 - held)).setWidth 5

/-- The intermediate value `a` of a RUN step: `(ACC << 5) | v`, 12 bits (R115). -/
def decPushSymbol (acc : Acc) (v : SymVal) : Acc := (acc <<< 5) ||| v.setWidth 12

/-- `t = BITSREM - 5`, a mathematical integer that is never stored (R18, R115). -/
def decT (bitsrem : BitVec 4) : Int := (bitsrem.toNat : Int) - 5

/-- The byte a RUN step completes: `(a >> (-t))[7:0]` (R115). -/
def decTopByte (a : Acc) (t : Int) : Byte := (a >>> (-t).toNat).setWidth 8

/-- The bits a RUN step keeps for the next byte: `a & ((1 << (-t)) - 1)` (R115). -/
def decLowBits (a : Acc) (t : Int) : Acc := a &&& ((1 <<< (-t).toNat) - 1)

end Sys2Proof.Machine
end

