-- ==== Sys2Proof/Machine/Decoder.lean ====
section
/-! DEFINITION. The block DEC: acceptance of a command (R112), the steps of the SCAN and RUN passes (R113 to R120, R128),
and the meanings of `DATALEN` (R83) and `DECODE` (R110). -/

namespace Sys2Proof.Machine

/-- The steps of a running DATALEN or DECODE (R128). -/
inductive DecStep where
  | scan
  | scanEnd
  | run
  | runEnd
deriving DecidableEq, Repr

/-- The step `DEC_START` (R112, R33): the registers of DEC after a command is accepted, whatever they held before. -/
def decStart {W : Nat} (op : DecOp) (len cap : Idx W) : DecRegs W where
  status := started
  op := op
  len := len
  cap := cap
  phase := .scan
  k := 0
  req := 0
  acc := 0
  bitsrem := 8
  inIdx := 0
  outIdx := 0

/-- Step selection (R128, with the enabling conditions of R113, R114, R115, R120); `none` where no row's condition
holds. -/
def decSelect {W : Nat} (r : DecRegs W) : Option DecStep :=
  if r.inIdx.toNat < r.len.toNat then
    match r.phase with
    | .scan => some .scan
    | .run => some .run
  else if r.inIdx = r.len then
    match r.phase with
    | .scan => some .scanEnd
    | .run => some .runEnd
  else none

/-- The read a step makes on `DEC.IBUF` (R29, R113, R115). -/
def decReadAddr {W : Nat} (r : DecRegs W) : DecStep → Option (Idx W)
  | .scan => some r.inIdx
  | .scanEnd => none
  | .run => some r.inIdx
  | .runEnd => none

/-- SCAN of the code unit `c` (R113). -/
def decScan {W : Nat} (r : DecRegs W) (c : Byte) : DecRegs W :=
  match classify c with
  | .invalid => { r with status := raise .invalidCharacter }
  | .pad => { r with inIdx := r.inIdx + 1 }
  | .sym _ => { r with k := r.k + 1, inIdx := r.inIdx + 1 }

/-- SCAN_END (R114): the capacity check of DECODE, and the end of DATALEN. -/
def decScanEnd {W : Nat} (r : DecRegs W) : DecRegs W :=
  let req := dataLen r.k.toNat
  let r := { r with req := BitVec.ofNat (W + 1) req }
  match r.op with
  | .datalen => { r with status := finish req }
  | .decode =>
    if r.cap.toNat < req then { r with status := raise .insufficientOutputCapacity }
    else { r with phase := .run, acc := 0, bitsrem := 8, inIdx := 0, outIdx := 0 }

/-- The `SYM(v)` case of RUN (R115): the registers, and the byte written when one is completed. -/
def decRunSym {W : Nat} (r : DecRegs W) (v : SymVal) : DecRegs W × Option (ObWrite W) :=
  let a := decPushSymbol r.acc v
  let t := decT r.bitsrem
  if 0 < t then
    ({ r with acc := a, bitsrem := BitVec.ofNat 4 t.toNat, inIdx := r.inIdx + 1 }, none)
  else if r.cap.toNat ≤ r.outIdx.toNat then
    ({ r with status := raise .boundsFault }, none)
  else
    ({ r with
        outIdx := r.outIdx + 1, acc := decLowBits a t, bitsrem := BitVec.ofNat 4 (t + 8).toNat, inIdx := r.inIdx + 1 },
      some ⟨r.outIdx, decTopByte a t⟩)

/-- RUN of the code unit `c` (R115, with the guards of R117 and R118). -/
def decRun {W : Nat} (r : DecRegs W) (c : Byte) : DecRegs W × Option (ObWrite W) :=
  match classify c with
  | .invalid => ({ r with status := raise .invalidCharacter }, none)
  | .pad => ({ r with inIdx := r.inIdx + 1 }, none)
  | .sym v => decRunSym r v

/-- RUN_END (R120); the leftover bits in `ACC` are dropped (R119). -/
def decRunEnd {W : Nat} (r : DecRegs W) : DecRegs W :=
  { r with status := finish r.outIdx.toNat }

/-- The registers of DEC after a step and the store it makes, given the answer of the read port. -/
def decNext {W : Nat} (r : DecRegs W) (rdata : Byte) : DecStep → DecRegs W × Option (ObWrite W)
  | .scan => (decScan r rdata, none)
  | .scanEnd => (decScanEnd r, none)
  | .run => decRun r rdata
  | .runEnd => (decRunEnd r, none)

/-- One step of a `BUSY` DEC (R22, R128): at most one read of `DEC.IBUF`, at most one write of `DEC.OBUF`. -/
def decRunStep {W : Nat} (c : Codec W) : Outcome :=
  match decSelect c.dec with
  | none => .fault (.noEnabledStep .dec)
  | some k =>
    let p := decNext c.dec (c.ibRdata .decIbuf (decReadAddr c.dec k)) k
    .next ⟨W, (c.withDec p.1).applyWrite .decObuf p.2⟩

/-- A command offered to DEC: accepted when `STATE` is not `BUSY` (R31, R112), else it changes nothing (R155). -/
def decOffer {W : Nat} (op : DecOp) (len cap : Idx W) (c : Codec W) : Outcome :=
  if c.busy .dec then .next ⟨W, c⟩ else .next ⟨W, c.withDec (decStart op len cap)⟩

/-- `DATALEN` (R83): the accepting step; the SCAN pass then runs by the block's own steps (`decRunStep`). The
fields are those of a command of the width (`Instr.wellFormed`; bits above the field are cut off), here and below. -/
def execDatalen (len cap : Nat) (s : State) : Outcome :=
  decOffer .datalen (BitVec.ofNat s.W len) (BitVec.ofNat s.W cap) s.codec

/-- `DECODE` (R110): the accepting step; both passes then run by the block's own steps (`decRunStep`). -/
def execDecode (len cap : Nat) (s : State) : Outcome :=
  decOffer .decode (BitVec.ofNat s.W len) (BitVec.ofNat s.W cap) s.codec

end Sys2Proof.Machine
end

