-- ==== Sys2Proof/Machine/Encoder.lean ====
section
/-! DEFINITION. The block ENC: acceptance of a command (R92), the steps of a running ENCODE (R93 to R98), and the meanings
of `ENCLEN` (R80) and `ENCODE` (R90). -/

namespace Sys2Proof.Machine

/-- The steps of a running ENCODE (R93). -/
inductive EncStep where
  | load
  | emit
  | flush
  | finish
deriving DecidableEq, Repr

/-- The step `ENC_START` (R92, R33): the registers of ENC after a command is accepted, whatever they held before. -/
def encStart {W : Nat} (op : EncOp) (len cap : Idx W) : EncRegs W where
  status :=
    match op with
    | .enclen => finish (enclen len.toNat)
    | .encode => if cap.toNat < enclen len.toNat then raise .insufficientOutputCapacity else started
  op := op
  len := len
  cap := cap
  req := BitVec.ofNat (W + 1) (enclen len.toNat)
  acc := 0
  held := 0
  inIdx := 0
  outIdx := 0

/-- Step selection: the first row of R93 whose condition holds; `none` where no row's does. -/
def encSelect {W : Nat} (r : EncRegs W) : Option EncStep :=
  if 5 ≤ r.held.toNat then some .emit
  else if r.inIdx.toNat < r.len.toNat then some .load
  else if r.inIdx = r.len then (if r.held = 0 then some .finish else some .flush)
  else none

/-- The read a step makes on `ENC.IBUF`: `ib_addr` when `ib_re` = 1 (R29, R94). -/
def encReadAddr {W : Nat} (r : EncRegs W) : EncStep → Option (Idx W)
  | .load => some r.inIdx
  | .emit => none
  | .flush => none
  | .finish => none

/-- LOAD of the byte `b` (R94). -/
def encLoad {W : Nat} (r : EncRegs W) (b : Byte) : EncRegs W :=
  { r with acc := encPushByte r.acc b, held := r.held + 8, inIdx := r.inIdx + 1 }

/-- EMIT (R95); `ACC` is not changed. -/
def encEmit {W : Nat} (r : EncRegs W) : EncRegs W :=
  { r with outIdx := r.outIdx + 1, held := r.held - 5 }

/-- FLUSH (R97); `ACC` is not changed. -/
def encFlush {W : Nat} (r : EncRegs W) : EncRegs W :=
  { r with outIdx := r.outIdx + 1, held := 0 }

/-- FINISH (R98). -/
def encFinish {W : Nat} (r : EncRegs W) : EncRegs W :=
  { r with status := finish r.outIdx.toNat }

/-- The write a step makes on `ENC.OBUF` (R30, R95, R97). -/
def encWrite {W : Nat} (r : EncRegs W) : EncStep → Option (ObWrite W)
  | .load => none
  | .emit => some ⟨r.outIdx, alpha (encTopSymbol r.acc r.held.toNat)⟩
  | .flush => some ⟨r.outIdx, alpha (encLastSymbol r.acc r.held.toNat)⟩
  | .finish => none

/-- The registers of ENC after a step, given the answer of the read port. -/
def encNext {W : Nat} (r : EncRegs W) (rdata : Byte) : EncStep → EncRegs W
  | .load => encLoad r rdata
  | .emit => encEmit r
  | .flush => encFlush r
  | .finish => encFinish r

/-- One step of a `BUSY` ENC (R22, R93): at most one read of `ENC.IBUF`, at most one write of `ENC.OBUF`. -/
def encRunStep {W : Nat} (c : Codec W) : Outcome :=
  match encSelect c.enc with
  | none => .fault (.noEnabledStep .enc)
  | some k =>
    .next ⟨W, (c.withEnc (encNext c.enc (c.ibRdata .encIbuf (encReadAddr c.enc k)) k)).applyWrite .encObuf
      (encWrite c.enc k)⟩

/-- A command offered to ENC: accepted when `STATE` is not `BUSY` (R31, R92), else it changes nothing (R155). -/
def encOffer {W : Nat} (op : EncOp) (len cap : Idx W) (c : Codec W) : Outcome :=
  if c.busy .enc then .next ⟨W, c⟩ else .next ⟨W, c.withEnc (encStart op len cap)⟩

/-- `ENCLEN` (R80): `RESULT` = `enclen(len)` in the accepting step; `cap` is latched and read by no step. The fields are
those of a command of the width (`Instr.wellFormed`; bits above the field are cut off), here and below. -/
def execEnclen (len cap : Nat) (s : State) : Outcome :=
  encOffer .enclen (BitVec.ofNat s.W len) (BitVec.ofNat s.W cap) s.codec

/-- `ENCODE` (R90): the accepting step; the operation then runs by the block's own steps (`encRunStep`). -/
def execEncode (len cap : Nat) (s : State) : Outcome :=
  encOffer .encode (BitVec.ofNat s.W len) (BitVec.ofNat s.W cap) s.codec

end Sys2Proof.Machine
end

