-- ==== Sys2Proof/Machine/Dispatch.lean ====
section
/-! DEFINITION. One arm per command: what the command does when it is offered to its block (R72). -/

namespace Sys2Proof.Machine

def exec (i : Instr) (s : State) : Host.Outcome State Fault Refusal :=
  match i with
  | .enclen len cap => Sys2Proof.Machine.execEnclen len cap s
  | .encode len cap => Sys2Proof.Machine.execEncode len cap s
  | .datalen len cap => Sys2Proof.Machine.execDatalen len cap s
  | .decode len cap => Sys2Proof.Machine.execDecode len cap s

end Sys2Proof.Machine
end

