-- ==== Sys2Proof/Machine/Flags.lean ====
section
/-! DEFINITION. What the host sees of a block: the encodings of `STATE` and `ERR` (R73, R74), the status port (R28) and
`cmd_ready` (R27). There are no condition codes (R23). -/

namespace Sys2Proof.Machine

/-- Encoding of `STATE` (R73). -/
def BlockState.code : BlockState → BitVec 2
  | .idle => 0b00
  | .busy => 0b01
  | .done => 0b10
  | .error => 0b11

/-- Encoding of `ERR` (R74). -/
def Err.code : Err → BitVec 2
  | .noError => 0b00
  | .invalidCharacter => 0b01
  | .insufficientOutputCapacity => 0b10
  | .boundsFault => 0b11

/-- The outputs of a block's status port (R28). -/
structure StatusPort (W : Nat) where
  state : BitVec 2
  err : BitVec 2
  result : Count W
deriving DecidableEq, Repr

/-- The status port drives `STATE`, `ERR`, `RESULT` at all times (R28). -/
def Codec.statusPort {W : Nat} (c : Codec W) (b : Block) : StatusPort W :=
  ⟨(c.status b).state.code, (c.status b).err.code, (c.status b).result⟩

/-- `cmd_ready` = 1 exactly when `STATE` is not `BUSY` (R27). -/
def Codec.cmdReady {W : Nat} (c : Codec W) (b : Block) : Bool := !c.busy b

end Sys2Proof.Machine
end

