-- ==== Sys2Proof/Machine/Turns.lean ====
section
/-! DEFINITION. What each agent does in its turn (R10): a block, the host, the host waiting. -/

namespace Sys2Proof.Machine

/-- The running step of a `BUSY` block (R22). -/
def runStep {W : Nat} (b : Block) (c : Codec W) : Outcome :=
  match b with
  | .enc => encRunStep c
  | .dec => decRunStep c

/-- The turn of a block that is not `BUSY`: the command the host holds on its port is decoded and accepted, and taken off
the port (R27, notes/assumptions/4.md); with `cmd_valid` = 0 nothing happens (R152). -/
def acceptTurn {W : Nat} (b : Block) (c : Codec W) : Outcome :=
  match c.cmd b with
  | none => .next ⟨W, c⟩
  | some w => exec (decodeCmd b w) ⟨W, c.setCmd b none⟩

/-- The turn of a block. While it is `BUSY` it runs, and a command held on its port waits there (R155). -/
def blockTurn {W : Nat} (b : Block) (c : Codec W) : Outcome :=
  if c.cmdReady b then acceptTurn b c else runStep b c

/-- A move of the host (R10), refused where it breaks the borrow (R48). -/
def hostMove {W : Nat} (m : HostMove W) (c : Codec W) : Outcome :=
  match m with
  | .drive b w => .next ⟨W, c.setCmd b (some w)⟩
  | .release b => .next ⟨W, c.setCmd b none⟩
  | .write sp i v =>
    if c.hostMayWrite sp then .next ⟨W, c.writeCell sp i.toNat v⟩ else .refused (.borrowedBuffer sp)
  | .read sp _ => if c.hostMayRead sp then .next ⟨W, c⟩ else .refused (.borrowedBuffer sp)
  | .copy src i dst j =>
    if c.hostMayRead src then
      if c.hostMayWrite dst then .next ⟨W, c.writeCell dst j.toNat (c.readCell src i.toNat)⟩
      else .refused (.borrowedBuffer dst)
    else .refused (.borrowedBuffer src)
  | .readStatus _ => .next ⟨W, c⟩
  | .reset b => .next ⟨W, c.resetBlock b⟩

/-- The head of `turns` is taken, `ts` being the rest. A `WAIT` stays at the head while its block is `BUSY`, and the block
runs (R75, notes/assumptions/13.md). -/
def takeTurn {W : Nat} (t : Turn W) (ts : List (Turn W)) (c : Codec W) : Outcome :=
  match t with
  | .block b => blockTurn b (c.withTurns ts)
  | .host m => hostMove m (c.withTurns ts)
  | .wait b => if c.busy b then blockTurn b c else .next ⟨W, c.withTurns ts⟩

/-- A block has something to do: a running operation or a command on its port. -/
def Codec.active {W : Nat} (c : Codec W) (b : Block) : Bool := c.busy b || (c.cmd b).isSome

/-- With no turn chosen, ENC moves if it has something to do, else DEC if it has, else nothing moves (R163, R164;
notes/assumptions/3.md). -/
def freeTurn {W : Nat} (c : Codec W) : Outcome :=
  if c.active .enc then blockTurn .enc c
  else if c.active .dec then blockTurn .dec c
  else .next ⟨W, c⟩

/-- A command word placed on a port, and that block's turn next. -/
def offerNext {W : Nat} (b : Block) (w : CmdWord W) (c : Codec W) : Codec W :=
  (c.setCmd b (some w)).withTurns (.block b :: c.turns)

end Sys2Proof.Machine
end

