-- ==== Sys2Proof/Machine/Step.lean ====
section
/-! DEFINITION. One step of the machine: one agent moves (R10, R22). -/

namespace Sys2Proof.Machine

/-- One step: the agent at the head of `turns` moves, or, with none chosen, the block that has something to do. -/
def step (s : State) : Host.Outcome State Fault Refusal :=
  match s.codec.turns with
  | [] => freeTurn s.codec
  | t :: ts => takeTurn t ts s.codec

/-- The state in which the host holds the table word `w` on the command port of the block it names, and that block moves
next. A number that is no table word places nothing (notes/assumptions/5.md). -/
def State.withFetchWord (s : State) (nbits w : Nat) : State :=
  match splitTableWord s.W nbits w with
  | .ok (b, word) => ⟨s.W, offerNext b word s.codec⟩
  | .error _ => s

end Sys2Proof.Machine
end

