-- ==== Sys2Proof/Machine/Ports.lean ====
section
/-! DEFINITION. What a block drives on its two buffer ports in its next running step (R29, R30). -/

namespace Sys2Proof.Machine

/-- Input-buffer read port: `ib_addr` where `ib_re` = 1, `none` where `ib_re` = 0 (R29). -/
def Codec.ibPort {W : Nat} (c : Codec W) (b : Block) : Option (Idx W) :=
  if c.busy b then
    match b with
    | .enc => (encSelect c.enc).bind (encReadAddr c.enc)
    | .dec => (decSelect c.dec).bind (decReadAddr c.dec)
  else none

/-- Output-buffer write port: `ob_addr` and `ob_wdata` where `ob_we` = 1, `none` where `ob_we` = 0 (R30). -/
def Codec.obPort {W : Nat} (c : Codec W) (b : Block) : Option (ObWrite W) :=
  if c.busy b then
    match b with
    | .enc => (encSelect c.enc).bind (encWrite c.enc)
    | .dec => (decSelect c.dec).bind fun k => (decNext c.dec (c.ibRdata .decIbuf (c.ibPort .dec)) k).2
  else none

/-- The output buffer of a block (R40). -/
def obufOf : Block → Space
  | .enc => .encObuf
  | .dec => .decObuf

/-- The input buffer of a block (R40). -/
def ibufOf : Block → Space
  | .enc => .encIbuf
  | .dec => .decIbuf

end Sys2Proof.Machine
end

