-- ==== Sys2Proof/Machine/Reference.lean ====
section
/-! DEFINITION. The functions on sequences that the spec gives beside the steps: the encoder's loop (R91), the decoder's
loop (R111), the closed forms over the bit stream (R66), and the step counts (R103, R126, R162). No step calls them; claims compare
the machine with them. -/

namespace Sys2Proof.Machine

/-- The inner loop of R91, `while held >= 5`, cut off after `fuel` rounds: the code units it emits and what is still held.
`held` rounds are always enough. -/
def encDrain (acc : Nat) : Nat → Nat → List Byte × Nat
  | 0, held => ([], held)
  | fuel + 1, held =>
    if 5 ≤ held then
      let rest := encDrain acc fuel (held - 5)
      (alpha (BitVec.ofNat 5 ((acc >>> (held - 5)) &&& 0x1F)) :: rest.1, rest.2)
    else ([], held)

/-- The outer loop of R91 from a given `acc` and `held`, with its last `if`. -/
def encLoop : Nat → Nat → List Byte → List Byte
  | acc, held, [] => if 0 < held then [alpha (BitVec.ofNat 5 ((acc <<< (5 - held)) &&& 0x1F))] else []
  | acc, held, b :: bs =>
    let acc' := (acc <<< 8) ||| b.toNat
    let round := encDrain acc' (held + 8) (held + 8)
    round.1 ++ encLoop acc' round.2 bs

/-- `enc(b)` (R91). -/
def encRef (bs : List Byte) : List Byte := encLoop 0 0 bs

/-- The loop of R111 from a given `acc` and `bitsRemaining`; `none` is `fail InvalidCharacter`. -/
def decLoop : Nat → Int → List Byte → Option (List Byte)
  | _, _, [] => some []
  | acc, rem, c :: cs =>
    match classify c with
    | .invalid => none
    | .pad => decLoop acc rem cs
    | .sym v =>
      let acc' := (acc <<< 5) ||| v.toNat
      let rem' := rem - 5
      if rem' ≤ 0 then
        (decLoop (acc' &&& ((1 <<< (-rem').toNat) - 1)) (rem' + 8) cs).map
          (fun out => BitVec.ofNat 8 (acc' >>> (-rem').toNat) :: out)
      else decLoop acc' rem' cs

/-- `dec(s)` (R111). -/
def decRef (cs : List Byte) : Option (List Byte) := decLoop 0 8 cs

/-- The values of the meaningful symbols of a text, in order (R63, R84). -/
def symValues (cs : List Byte) : List SymVal :=
  cs.filterMap fun c =>
    match classify c with
    | .sym v => some v
    | .pad => none
    | .invalid => none

/-- The number `k` of meaningful symbols of a text (R84). -/
def symCount (cs : List Byte) : Nat := (symValues cs).length

/-- No code unit of the text is `INVALID`. -/
def allValid (cs : List Byte) : Prop := ∀ c ∈ cs, classify c ≠ .invalid

/-- `datalen(s)` of a text without an `INVALID` code unit (R84). -/
def dataLenOf (cs : List Byte) : Nat := dataLen (symCount cs)

/-- Bit `p` of a byte sequence, MSB first, followed by zeros (R66). -/
def byteBit (bs : List Byte) (p : Nat) : Bool := (bs.getD (p / 8) 0).getLsbD (7 - p % 8)

/-- Bit `p` of a symbol value sequence, 5 bits each, MSB first (R66, R111). -/
def symBit (vs : List SymVal) (p : Nat) : Bool := (vs.getD (p / 5) 0).getLsbD (4 - p % 5)

/-- The number whose binary form is the `n` stream bits from bit `p` on, oldest bit highest (R66). -/
def bitsVal (bit : Nat → Bool) (p : Nat) : Nat → Nat
  | 0 => 0
  | n + 1 => 2 * bitsVal bit p n + (bit (p + n)).toNat

/-- `v[j]` of R66 for a byte sequence. -/
def streamSymbol (bs : List Byte) (j : Nat) : SymVal := BitVec.ofNat 5 (bitsVal (byteBit bs) (5 * j) 5)

/-- Byte `m` of the symbol stream (R66, R121). -/
def streamByte (vs : List SymVal) (m : Nat) : Byte := BitVec.ofNat 8 (bitsVal (symBit vs) (8 * m) 8)

/-- The index of the first `INVALID` code unit of a text, if it has one (R126). -/
def firstInvalid (cs : List Byte) : Option Nat := cs.findIdx? fun c => classify c == .invalid

/-- How many steps an operation takes after its accepting step, on the input `0 .. len-1` (R162; R103 for ENC, R126 for DEC). -/
def stepCount (i : Instr) (input : List Byte) : Nat :=
  match i with
  | .enclen _ _ => 0
  | .encode len cap => if cap < enclen len then 0 else len + enclen len + 1
  | .datalen len _ =>
    match firstInvalid input with
    | some p => p + 1
    | none => len + 1
  | .decode len cap =>
    match firstInvalid input with
    | some p => p + 1
    | none => if cap < dataLenOf input then len + 1 else 2 * len + 2

/-- Which step an operation of DEC over `len` code units takes as its `k`-th after the accepting one, counted from 0, if it
gets so far (R126): `len` times SCAN, SCAN_END, `len` times RUN, RUN_END. -/
def decStepAt (len k : Nat) : DecStep :=
  if k < len then .scan
  else if k = len then .scanEnd
  else if k < 2 * len + 1 then .run
  else .runEnd

/-- The first `n` cells of a space, in index order. -/
def Codec.cells {W : Nat} (c : Codec W) (sp : Space) (n : Nat) : List Byte := (List.range n).map (c.readCell sp)

end Sys2Proof.Machine
end

