-- ==== Sys2Proof/Safety.lean ====
section
/-! DEFINITION. The terms in which claims speak: the invariant of the machine (R11, R16, R20, R99, R121), runs of one block, and
what a run leaves alone. -/

namespace Sys2Proof.Machine

/-- The input of a call: the cells `0 .. n-1` of an input buffer (R41). -/
abbrev Codec.input {W : Nat} (s : Codec W) (sp : Space) (n : Nat) : List Byte := s.cells sp n

/-- What the status registers of a block satisfy at all times (R20, R158): `ERR` is `NONE` exactly outside `ERROR`, and
`RESULT` is 0 outside `DONE`. -/
structure Status.Inv {W : Nat} (st : Status W) : Prop where
  err_none : st.err = .noError ↔ st.state ≠ .error
  result_zero : st.state ≠ .done → st.result = 0

/-- What ENC satisfies while `BUSY` (R99), `input` being the cells `0 .. LEN-1` of its input and `out` reading its output
buffer: the capacity check has passed; before FLUSH the bits loaded are the bits emitted and those held, and `ACC` holds the
latter; every symbol written so far is the one of R66. -/
structure EncRegs.RunInv {W : Nat} (r : EncRegs W) (input : List Byte) (out : Nat → Byte) : Prop where
  op_encode : r.op = .encode
  fits : r.req.toNat ≤ r.cap.toNat
  balance :
    (8 * r.inIdx.toNat = 5 * r.outIdx.toNat + r.held.toNat ∧
      r.acc.toNat % 2 ^ r.held.toNat = bitsVal (byteBit input) (5 * r.outIdx.toNat) r.held.toNat) ∨
    (r.inIdx = r.len ∧ r.held = 0 ∧ r.outIdx.toNat = r.req.toNat)
  written : ∀ j, j < r.outIdx.toNat → out j = alpha (streamSymbol input j)

/-- What ENC satisfies at all times (R11, R99). -/
structure EncRegs.Inv {W : Nat} (r : EncRegs W) (input : List Byte) (out : Nat → Byte) : Prop where
  status : r.status.Inv
  err_legal : r.status.err = .noError ∨ r.status.err = .insufficientOutputCapacity
  req_eq : r.req.toNat = enclen r.len.toNat
  held_le : r.held.toNat ≤ 12
  inIdx_le : r.inIdx.toNat ≤ r.len.toNat
  outIdx_le : r.outIdx.toNat ≤ r.req.toNat
  result_done : r.status.state = .done → r.status.result = r.req
  running : r.status.state = .busy → r.RunInv input out

/-- What DEC satisfies in the SCAN pass (R121, last paragraph). -/
structure DecRegs.ScanInv {W : Nat} (r : DecRegs W) (input : List Byte) : Prop where
  count : r.k.toNat = symCount (input.take r.inIdx.toNat)
  valid : allValid (input.take r.inIdx.toNat)
  fresh : r.acc = 0 ∧ r.bitsrem = 8 ∧ r.outIdx = 0 ∧ r.req = 0

/-- What DEC satisfies in the RUN pass (R121). -/
structure DecRegs.RunInv {W : Nat} (r : DecRegs W) (input : List Byte) (out : Nat → Byte) : Prop where
  op_decode : r.op = .decode
  valid : allValid input
  count : r.k.toNat = symCount input
  req_eq : r.req.toNat = dataLen r.k.toNat
  fits : r.req.toNat ≤ r.cap.toNat
  balance : 5 * symCount (input.take r.inIdx.toNat) = 8 * r.outIdx.toNat + (8 - r.bitsrem.toNat)
  pending : r.acc.toNat = bitsVal (symBit (symValues input)) (8 * r.outIdx.toNat) (8 - r.bitsrem.toNat)
  written : ∀ m, m < r.outIdx.toNat → out m = streamByte (symValues input) m

/-- What DEC satisfies at all times (R16, R121). `BOUNDS_FAULT` is never produced (R134). -/
structure DecRegs.Inv {W : Nat} (r : DecRegs W) (input : List Byte) (out : Nat → Byte) : Prop where
  status : r.status.Inv
  err_legal : r.status.err ≠ .boundsFault
  k_le : r.k.toNat ≤ r.len.toNat
  bitsrem_range : 1 ≤ r.bitsrem.toNat ∧ r.bitsrem.toNat ≤ 8
  acc_lt : r.acc.toNat < 2 ^ (8 - r.bitsrem.toNat)
  inIdx_le : r.inIdx.toNat ≤ r.len.toNat
  outIdx_le : r.outIdx.toNat ≤ r.req.toNat
  req_le : r.req.toNat ≤ dataLen r.k.toNat
  result_done : r.status.state = .done → r.status.result = r.req
  scanning : r.status.state = .busy → r.phase = .scan → r.ScanInv input
  running : r.status.state = .busy → r.phase = .run → r.RunInv input out

/-- The invariant of the pair of blocks: each over its own buffers, and the canonical form of the four spaces. -/
structure Codec.Inv {W : Nat} (s : Codec W) : Prop where
  enc : s.enc.Inv (s.input .encIbuf s.enc.len.toNat) (s.readCell .encObuf)
  dec : s.dec.Inv (s.input .decIbuf s.dec.len.toNat) (s.readCell .decObuf)
  mem : ∀ sp, (s.buf sp).wf W = true

/-- The invariant of the machine: the width is one a build can have (R5), and the blocks have theirs. -/
structure State.Inv (s : State) : Prop where
  width : 1 ≤ s.W
  codec : s.codec.Inv

/-- The blocks with the next `n` turns given to one of them. -/
def Codec.giveTurns {W : Nat} (s : Codec W) (b : Block) (n : Nat) : Codec W :=
  s.withTurns (List.replicate n (.block b) ++ s.turns)

/-- `n` steps of the machine in which one block moves. -/
def runBlock {W : Nat} (b : Block) (n : Nat) (s : Codec W) : Outcome := Sys2Proof.core.run n ⟨W, s.giveTurns b n⟩

/-- The registers of the other block, its two buffers, the input buffer of `b` and both command ports are the same: what no
running step of `b` changes (R10, R29, R155). -/
def sameOutside {W : Nat} (b : Block) (s t : Codec W) : Prop :=
  match b with
  | .enc =>
    t.dec = s.dec ∧ t.encIbuf = s.encIbuf ∧ t.decIbuf = s.decIbuf ∧ t.decObuf = s.decObuf ∧ t.encCmd = s.encCmd ∧
      t.decCmd = s.decCmd
  | .dec =>
    t.enc = s.enc ∧ t.decIbuf = s.decIbuf ∧ t.encIbuf = s.encIbuf ∧ t.encObuf = s.encObuf ∧ t.encCmd = s.encCmd ∧
      t.decCmd = s.decCmd

/-- Every cell of a space reads the same, but the cells `a` with `touched a` (R44, R45). -/
def sameCellsExcept {W : Nat} (sp : Space) (touched : Nat → Prop) (s t : Codec W) : Prop :=
  ∀ a, ¬ touched a → t.readCell sp a = s.readCell sp a

/-- No buffer is changed. -/
def sameBuffers {W : Nat} (s t : Codec W) : Prop := ∀ sp, t.buf sp = s.buf sp

end Sys2Proof.Machine
end

