-- ==== Sys2Proof/Certificates/Slice0/Obligations.lean ====
section
/-! DEFINITION. The statements for the provers, by the files of the spec: encodings (30), lengths (40), commands (41, 42), steps
(41, 42), runs (41, 42), errors (60), reset (70), buffers and agents (10, 20), invariants, step counts, the width.

They are made for every width `W` of a build (R5): `⟨W, s⟩` is the machine of width `W` whose pair of blocks is in state `s`, and
a command of that width has fields `len.toNat`, `cap.toNat` with `len cap : Idx W`. -/

open Sys2Proof Sys2Proof.Machine

/-! ### Encodings (30_encoding.md) -/

/-- R70, R71: the three fields of a command word stand where the rules put them, unscaled and unsplit, on either port. -/
def Obligations.CommandWordFields : Prop :=
  ∀ (W : Nat) (b : Block) (w : CmdWord W),
    (decodeCmd b w).block = b ∧ (decodeCmd b w).len < 2 ^ W ∧ (decodeCmd b w).cap < 2 ^ W ∧
    w.toNat = (decodeCmd b w).op.toNat * 2 ^ (2 * W) + (decodeCmd b w).len * 2 ^ W + (decodeCmd b w).cap

/-- R72: the opcode map of each port; with it every word is a command. -/
def Obligations.OpcodeMapOfBothPorts : Prop :=
  ∀ (W : Nat) (w : CmdWord W),
    (w.toNat < 2 ^ (2 * W) →
      (∃ len cap, decodeCmd .enc w = .enclen len cap) ∧ (∃ len cap, decodeCmd .dec w = .datalen len cap)) ∧
    (2 ^ (2 * W) ≤ w.toNat →
      (∃ len cap, decodeCmd .enc w = .encode len cap) ∧ (∃ len cap, decodeCmd .dec w = .decode len cap))

/-- The command words printed in R75 and in 95_test_vectors.md section 7, which are for `W` = 32, on the port the script names. -/
def Obligations.PrintedCommandWordsDecode : Prop :=
  decodeCmd (W := 32) .enc 0x10000000300000005 = .encode 3 5 ∧
  decodeCmd (W := 32) .dec 0x10000000800000001 = .decode 8 1 ∧
  decodeCmd (W := 32) .enc 0x00000000600000000 = .enclen 6 0 ∧
  decodeCmd (W := 32) .dec 0x00000000A00000000 = .datalen 10 0

/-- R70 to R72: decoding and encoding are inverse to each other, for every command of every width and for every word on either
port. -/
def Obligations.DecodeAndEncodeAgree : Prop :=
  (∀ (W : Nat) (i : Instr), i.wellFormed W = true → decodeCmd i.block (encodeCmd W i) = i) ∧
  (∀ (W : Nat) (b : Block) (w : CmdWord W),
    (decodeCmd b w).wellFormed W = true ∧ encodeCmd W (decodeCmd b w) = w)

/-- R75: a well-formed line of a host script becomes the command of its block with its `len` and its `cap`, 0 where `cap` is
omitted; every other line is refused. -/
def Obligations.ScriptLinesBecomeCommands : Prop :=
  ∀ (W : Nat) (c : CommandLine),
    (c.wellFormed W = true →
      ∃ i, assemble W c = .ok i ∧ i.wellFormed W = true ∧ i.block = c.block ∧ i.op = c.mnemonic.usesCap ∧
        i.len = c.len ∧ i.cap = c.cap.getD 0) ∧
    (c.wellFormed W = false → assemble W c = .error .illFormedLine)

/-- R61: the symbol lookup in closed form, and as positions of the alphabet string. -/
def Obligations.AlphaIsTheAlphabet : Prop :=
  (∀ v : SymVal,
    (v.toNat ≤ 25 → (alpha v).toNat = 0x41 + v.toNat) ∧ (26 ≤ v.toNat → (alpha v).toNat = 0x32 + (v.toNat - 26))) ∧
  (List.range 32).map (fun v => (alpha (BitVec.ofNat 5 v)).toNat) =
    "ABCDEFGHIJKLMNOPQRSTUVWXYZ234567".toList.map Char.toNat

/-- R62: the reverse lookup inverts the lookup, which is injective and never yields `=`. -/
def Obligations.ClassifyInvertsAlpha : Prop :=
  (∀ v w : SymVal, alpha v = alpha w → v = w) ∧ (∀ v : SymVal, alpha v ≠ 0x3D ∧ classify (alpha v) = .sym v)

/-- R63: the classifier's table over all 256 code units, with the 223 `INVALID` ones. -/
def Obligations.ClassifierTable : Prop :=
  (∀ c : Byte,
    (0x41 ≤ c.toNat ∧ c.toNat ≤ 0x5A → ∃ v : SymVal, classify c = .sym v ∧ v.toNat = c.toNat - 0x41) ∧
    (0x32 ≤ c.toNat ∧ c.toNat ≤ 0x37 → ∃ v : SymVal, classify c = .sym v ∧ v.toNat = c.toNat - 0x32 + 26) ∧
    (c.toNat = 0x3D → classify c = .pad) ∧
    (¬ (0x41 ≤ c.toNat ∧ c.toNat ≤ 0x5A) → ¬ (0x32 ≤ c.toNat ∧ c.toNat ≤ 0x37) → c.toNat ≠ 0x3D →
      classify c = .invalid)) ∧
  ((List.range 256).filter fun c => classify (BitVec.ofNat 8 c) == .invalid).length = 223

/-- R73, R74, R28, R27: the codes on the status port, and `cmd_ready`. -/
def Obligations.StatusPortCodes : Prop :=
  ∀ (W : Nat) (s : Codec W) (b : Block),
    ((s.status b).state = .idle → (s.statusPort b).state = 0b00) ∧
    ((s.status b).state = .busy → (s.statusPort b).state = 0b01) ∧
    ((s.status b).state = .done → (s.statusPort b).state = 0b10) ∧
    ((s.status b).state = .error → (s.statusPort b).state = 0b11) ∧
    ((s.status b).err = .noError → (s.statusPort b).err = 0b00) ∧
    ((s.status b).err = .invalidCharacter → (s.statusPort b).err = 0b01) ∧
    ((s.status b).err = .insufficientOutputCapacity → (s.statusPort b).err = 0b10) ∧
    ((s.status b).err = .boundsFault → (s.statusPort b).err = 0b11) ∧
    (s.statusPort b).result = (s.status b).result ∧
    (s.cmdReady b = true ↔ (s.status b).state ≠ .busy)

/-! ### Lengths (40_length_calculators.md) -/

/-- R81: `enclen(n)` is `ceil(8n/5)`, with the equivalent forms the rule lists. -/
def Obligations.EnclenIsTheCeiling : Prop :=
  ∀ n : Nat,
    8 * n ≤ 5 * enclen n ∧ 5 * enclen n < 8 * n + 5 ∧ enclen n = (8 * n + 4) / 5 ∧
    enclen n = 8 * (n / 5) + [0, 2, 4, 5, 7].getD (n % 5) 0 ∧ enclen 0 = 0

/-- R82, R84: nothing wraps, at any width: the rounded-up bit count and `5k` fit `W + 3` bits, `enclen` of a `W`-bit length fits
`W + 1` bits and `floor(5k/8)` of a `W`-bit count fits `W` bits. -/
def Obligations.LengthsNeverWrap : Prop :=
  ∀ (W : Nat) (n : Idx W),
    5 * enclen n.toNat ≤ 8 * (2 ^ W - 1) + 4 ∧ 8 * (2 ^ W - 1) + 4 < 2 ^ (W + 3) ∧
    enclen n.toNat ≤ enclen (2 ^ W - 1) ∧ enclen (2 ^ W - 1) < 2 ^ (W + 1) ∧
    5 * n.toNat < 2 ^ (W + 3) ∧ dataLen n.toNat < 2 ^ W ∧ (0 < n.toNat → dataLen n.toNat < n.toNat)

/-- R86, R84: the data length of `enclen(n)` symbols is `n`, whatever `=` stand among them; and the residue form of
`floor(5k/8)`. -/
def Obligations.DataLenUndoesEnclen : Prop :=
  (∀ n : Nat, dataLen (enclen n) = n) ∧
  (∀ (n : Nat) (cs : List Byte), symCount cs = enclen n → dataLenOf cs = n) ∧
  (∀ k : Nat, dataLen k = 5 * (k / 8) + [0, 0, 1, 1, 2, 3, 3, 4].getD (k % 8) 0)

/-! ### Commands (40, 41, 42) -/

/-- R80: ENCLEN completes in the accepting step. `RESULT` is `enclen(len)` exactly, `cap` is only latched, and nothing outside
ENC's registers changes. -/
def Obligations.EnclenCompletes : Prop :=
  ∀ (W : Nat) (s : Codec W) (len cap : Idx W), s.busy .enc = false →
    ∃ e : EncRegs W,
      exec (.enclen len.toNat cap.toNat) ⟨W, s⟩ = .next ⟨W, { s with enc := e }⟩ ∧
      e.op = .enclen ∧ e.len = len ∧ e.cap = cap ∧ e.req.toNat = enclen len.toNat ∧
      e.status.result.toNat = enclen len.toNat ∧ e.status.err = .noError ∧ e.status.state = .done ∧
      e.acc = 0 ∧ e.held = 0 ∧ e.inIdx = 0 ∧ e.outIdx = 0

/-- R92 for `op = ENCODE` (for `op = ENCLEN` see `EnclenCompletes`): the accepting step, with the capacity check at full
precision. Nothing outside ENC's registers changes. -/
def Obligations.EncodeIsAccepted : Prop :=
  ∀ (W : Nat) (s : Codec W) (len cap : Idx W), s.busy .enc = false →
    ∃ e : EncRegs W,
      exec (.encode len.toNat cap.toNat) ⟨W, s⟩ = .next ⟨W, { s with enc := e }⟩ ∧
      e.op = .encode ∧ e.len = len ∧ e.cap = cap ∧ e.req.toNat = enclen len.toNat ∧
      e.acc = 0 ∧ e.held = 0 ∧ e.inIdx = 0 ∧ e.outIdx = 0 ∧ e.status.result = 0 ∧
      (cap.toNat < enclen len.toNat → e.status.state = .error ∧ e.status.err = .insufficientOutputCapacity) ∧
      (enclen len.toNat ≤ cap.toNat → e.status.state = .busy ∧ e.status.err = .noError)

/-- R112: the accepting step of DATALEN and of DECODE. Both always enter `BUSY`; nothing outside DEC's registers changes. -/
def Obligations.DatalenAndDecodeAreAccepted : Prop :=
  ∀ (W : Nat) (s : Codec W) (len cap : Idx W), s.busy .dec = false →
    ∃ d d' : DecRegs W,
      exec (.datalen len.toNat cap.toNat) ⟨W, s⟩ = .next ⟨W, { s with dec := d }⟩ ∧ d.op = .datalen ∧
      exec (.decode len.toNat cap.toNat) ⟨W, s⟩ = .next ⟨W, { s with dec := d' }⟩ ∧ d'.op = .decode ∧
      ∀ r ∈ [d, d'],
        r.len = len ∧ r.cap = cap ∧ r.phase = .scan ∧ r.k = 0 ∧ r.req = 0 ∧ r.acc = 0 ∧ r.bitsrem = 8 ∧
        r.inIdx = 0 ∧ r.outIdx = 0 ∧ r.status = ⟨.busy, .noError, 0⟩

/-- R33, R3: whatever the registers of the block held before, the same command leaves the same registers. -/
def Obligations.EarlierCallsLeaveNoTrace : Prop :=
  ∀ (W : Nat) (i : Instr) (s s' : Codec W), s.busy i.block = false → s'.busy i.block = false →
    ∃ t t' : Codec W, exec i ⟨W, s⟩ = .next ⟨W, t⟩ ∧ exec i ⟨W, s'⟩ = .next ⟨W, t'⟩ ∧
      (i.block = .enc → t.enc = t'.enc) ∧ (i.block = .dec → t.dec = t'.dec)

/-- R155: a command offered to a `BUSY` block changes nothing, and a command held on the port of a `BUSY` block does not disturb
the running step and waits there. -/
def Obligations.BusyBlockTakesNoCommand : Prop :=
  (∀ (W : Nat) (i : Instr) (s : Codec W), s.busy i.block = true → exec i ⟨W, s⟩ = .next ⟨W, s⟩) ∧
  (∀ (W : Nat) (s t : Codec W) (b : Block) (ts : List (Turn W)) (c : Option (CmdWord W)), s.busy b = true →
    s.turns = .block b :: ts → step ⟨W, s⟩ = .next ⟨W, t⟩ →
    t.cmd b = s.cmd b ∧ step ⟨W, s.setCmd b c⟩ = .next ⟨W, t.setCmd b c⟩)

/-- A step in which a ready block has the turn runs the command on its port, taken off the port, and with no command there nothing
(R27, R152); a step in which a `BUSY` block has the turn is that block's running step (R22). With no turn chosen ENC has the turn if
it is `BUSY` or has a command on its port, else DEC if it is or has, else nothing happens. Taking the command off the port and who
moves when no turn is chosen are the model's choices (log entries 4 and 3). -/
def Obligations.StepRunsTheDecodedCommand : Prop :=
  (∀ (W : Nat) (s : Codec W) (b : Block) (ts : List (Turn W)), s.turns = .block b :: ts →
    (∀ w, s.busy b = false → s.cmd b = some w →
      step ⟨W, s⟩ = exec (decodeCmd b w) ⟨W, (s.withTurns ts).setCmd b none⟩) ∧
    (s.busy b = false → s.cmd b = none → step ⟨W, s⟩ = .next ⟨W, s.withTurns ts⟩) ∧
    (s.busy b = true → step ⟨W, s⟩ = runStep b (s.withTurns ts))) ∧
  (∀ (W : Nat) (s : Codec W), s.turns = [] →
    (∀ w, s.busy .enc = false → s.encCmd = some w →
      step ⟨W, s⟩ = exec (decodeCmd .enc w) ⟨W, s.setCmd .enc none⟩) ∧
    (s.busy .enc = true → step ⟨W, s⟩ = runStep .enc s) ∧
    (∀ w, s.busy .enc = false → s.encCmd = none → s.busy .dec = false → s.decCmd = some w →
      step ⟨W, s⟩ = exec (decodeCmd .dec w) ⟨W, s.setCmd .dec none⟩) ∧
    (s.busy .enc = false → s.encCmd = none → s.busy .dec = true → step ⟨W, s⟩ = runStep .dec s) ∧
    (s.busy .enc = false → s.encCmd = none → s.busy .dec = false → s.decCmd = none → step ⟨W, s⟩ = .next ⟨W, s⟩))

/-! ### Steps of ENC (41_encoder.md) -/

/-- R94: LOAD. -/
def Obligations.LoadStep : Prop :=
  ∀ (W : Nat) (s : Codec W) (ts : List (Turn W)), s.turns = .block .enc :: ts → s.busy .enc = true → s.enc.held.toNat ≤ 4 →
    s.enc.inIdx.toNat < s.enc.len.toNat →
    ∃ e : EncRegs W,
      step ⟨W, s⟩ = .next ⟨W, { s with enc := e, turns := ts }⟩ ∧
      e = { s.enc with acc := e.acc, held := e.held, inIdx := e.inIdx } ∧
      e.acc.toNat = (s.enc.acc.toNat % 16) * 256 + (s.readCell .encIbuf s.enc.inIdx.toNat).toNat ∧
      e.held.toNat = s.enc.held.toNat + 8 ∧ e.inIdx.toNat = s.enc.inIdx.toNat + 1

/-- R95: EMIT. The value is `ACC[HELD-1 : HELD-5]`; one cell is written, every other cell reads as before. -/
def Obligations.EmitStep : Prop :=
  ∀ (W : Nat) (s : Codec W) (ts : List (Turn W)), s.turns = .block .enc :: ts → s.busy .enc = true → 5 ≤ s.enc.held.toNat →
    s.enc.held.toNat ≤ 12 →
    ∃ (t : Codec W) (v : SymVal),
      step ⟨W, s⟩ = .next ⟨W, t⟩ ∧ v.toNat = s.enc.acc.toNat / 2 ^ (s.enc.held.toNat - 5) % 32 ∧
      t.enc = { s.enc with outIdx := s.enc.outIdx + 1, held := t.enc.held } ∧
      t.enc.held.toNat = s.enc.held.toNat - 5 ∧
      t.readCell .encObuf s.enc.outIdx.toNat = alpha v ∧
      sameCellsExcept .encObuf (· = s.enc.outIdx.toNat) s t ∧ sameOutside .enc s t ∧ t.turns = ts

/-- R97: FLUSH. The held bits become the high bits of the last symbol, the other bits of it are zero. -/
def Obligations.FlushStep : Prop :=
  ∀ (W : Nat) (s : Codec W) (ts : List (Turn W)), s.turns = .block .enc :: ts → s.busy .enc = true → 1 ≤ s.enc.held.toNat →
    s.enc.held.toNat ≤ 4 → s.enc.inIdx = s.enc.len →
    ∃ (t : Codec W) (v : SymVal),
      step ⟨W, s⟩ = .next ⟨W, t⟩ ∧
      v.toNat = (s.enc.acc.toNat % 2 ^ s.enc.held.toNat) * 2 ^ (5 - s.enc.held.toNat) ∧
      t.enc = { s.enc with outIdx := s.enc.outIdx + 1, held := 0 } ∧
      t.readCell .encObuf s.enc.outIdx.toNat = alpha v ∧
      sameCellsExcept .encObuf (· = s.enc.outIdx.toNat) s t ∧ sameOutside .enc s t ∧ t.turns = ts

/-- R98: FINISH. -/
def Obligations.FinishStep : Prop :=
  ∀ (W : Nat) (s : Codec W) (ts : List (Turn W)), s.turns = .block .enc :: ts → s.busy .enc = true → s.enc.held = 0 →
    s.enc.inIdx = s.enc.len →
    ∃ e : EncRegs W,
      step ⟨W, s⟩ = .next ⟨W, { s with enc := e, turns := ts }⟩ ∧ e = { s.enc with status := e.status } ∧
      e.status.result.toNat = s.enc.outIdx.toNat ∧ e.status.state = .done ∧ e.status.err = .noError

/-! ### Steps of DEC (42_decoder.md) -/

/-- R113: SCAN, its three cases. No buffer is changed. -/
def Obligations.ScanStep : Prop :=
  ∀ (W : Nat) (s : Codec W) (ts : List (Turn W)), s.turns = .block .dec :: ts → s.busy .dec = true → s.dec.phase = .scan →
    s.dec.inIdx.toNat < s.dec.len.toNat →
    ∃ d : DecRegs W,
      step ⟨W, s⟩ = .next ⟨W, { s with dec := d, turns := ts }⟩ ∧
      (classify (s.readCell .decIbuf s.dec.inIdx.toNat) = .invalid →
        d = { s.dec with status := ⟨.error, .invalidCharacter, 0⟩ }) ∧
      (classify (s.readCell .decIbuf s.dec.inIdx.toNat) = .pad →
        d = { s.dec with inIdx := d.inIdx } ∧ d.inIdx.toNat = s.dec.inIdx.toNat + 1) ∧
      (∀ v, classify (s.readCell .decIbuf s.dec.inIdx.toNat) = .sym v →
        d = { s.dec with k := s.dec.k + 1, inIdx := d.inIdx } ∧ d.inIdx.toNat = s.dec.inIdx.toNat + 1)

/-- R114: SCAN_END, its three outcomes. `REQ` is written in all of them. No buffer is changed. -/
def Obligations.ScanEndStep : Prop :=
  ∀ (W : Nat) (s : Codec W) (ts : List (Turn W)), s.turns = .block .dec :: ts → s.busy .dec = true → s.dec.phase = .scan →
    s.dec.inIdx = s.dec.len →
    ∃ d : DecRegs W,
      step ⟨W, s⟩ = .next ⟨W, { s with dec := d, turns := ts }⟩ ∧ d.req.toNat = dataLen s.dec.k.toNat ∧
      (s.dec.op = .datalen →
        d = { s.dec with req := d.req, status := ⟨.done, .noError, d.req⟩ }) ∧
      (s.dec.op = .decode → s.dec.cap.toNat < dataLen s.dec.k.toNat →
        d = { s.dec with req := d.req, status := ⟨.error, .insufficientOutputCapacity, 0⟩ }) ∧
      (s.dec.op = .decode → dataLen s.dec.k.toNat ≤ s.dec.cap.toNat →
        d = { s.dec with req := d.req, phase := .run, acc := 0, bitsrem := 8, inIdx := 0, outIdx := 0 })

/-- R115 with R117 and R118: RUN, its five cases, for every content of `ACC` and `BITSREM`. For `BITSREM` 0 and 9 to 15, which R16
and R18 say never occur, the outcome stated is the model's choice (log entry 10). -/
def Obligations.RunStep : Prop :=
  ∀ (W : Nat) (s : Codec W) (ts : List (Turn W)), s.turns = .block .dec :: ts → s.busy .dec = true → s.dec.phase = .run →
    s.dec.inIdx.toNat < s.dec.len.toNat →
    ∃ t : Codec W, step ⟨W, s⟩ = .next ⟨W, t⟩ ∧ sameOutside .dec s t ∧ t.turns = ts ∧
      (classify (s.readCell .decIbuf s.dec.inIdx.toNat) = .invalid →
        t.dec = { s.dec with status := ⟨.error, .invalidCharacter, 0⟩ } ∧ sameBuffers s t) ∧
      (classify (s.readCell .decIbuf s.dec.inIdx.toNat) = .pad →
        t.dec = { s.dec with inIdx := s.dec.inIdx + 1 } ∧ sameBuffers s t) ∧
      (∀ v : SymVal, classify (s.readCell .decIbuf s.dec.inIdx.toNat) = .sym v →
        (5 < s.dec.bitsrem.toNat →
          t.dec = { s.dec with acc := t.dec.acc, bitsrem := t.dec.bitsrem, inIdx := s.dec.inIdx + 1 } ∧
          t.dec.acc.toNat = (s.dec.acc.toNat * 32 + v.toNat) % 4096 ∧
          t.dec.bitsrem.toNat = s.dec.bitsrem.toNat - 5 ∧ sameBuffers s t) ∧
        (s.dec.bitsrem.toNat ≤ 5 → s.dec.cap.toNat ≤ s.dec.outIdx.toNat →
          t.dec = { s.dec with status := ⟨.error, .boundsFault, 0⟩ } ∧ sameBuffers s t) ∧
        (s.dec.bitsrem.toNat ≤ 5 → s.dec.outIdx.toNat < s.dec.cap.toNat →
          t.dec =
            { s.dec with
              outIdx := s.dec.outIdx + 1, acc := t.dec.acc, bitsrem := t.dec.bitsrem, inIdx := s.dec.inIdx + 1 } ∧
          t.dec.acc.toNat = (s.dec.acc.toNat * 32 + v.toNat) % 4096 % 2 ^ (5 - s.dec.bitsrem.toNat) ∧
          t.dec.bitsrem.toNat = s.dec.bitsrem.toNat + 3 ∧
          (t.readCell .decObuf s.dec.outIdx.toNat).toNat =
            (s.dec.acc.toNat * 32 + v.toNat) % 4096 / 2 ^ (5 - s.dec.bitsrem.toNat) % 256 ∧
          sameCellsExcept .decObuf (· = s.dec.outIdx.toNat) s t))

/-- R120: RUN_END. -/
def Obligations.RunEndStep : Prop :=
  ∀ (W : Nat) (s : Codec W) (ts : List (Turn W)), s.turns = .block .dec :: ts → s.busy .dec = true → s.dec.phase = .run →
    s.dec.inIdx = s.dec.len →
    ∃ d : DecRegs W,
      step ⟨W, s⟩ = .next ⟨W, { s with dec := d, turns := ts }⟩ ∧ d = { s.dec with status := d.status } ∧
      d.status.result.toNat = s.dec.outIdx.toNat ∧ d.status.state = .done ∧ d.status.err = .noError

/-! ### Whole operations (41, 42) -/

/-- R90, R44, R103, R104: an ENCODE with room for its output is accepted, stays `BUSY` for `len + enclen(len)` steps, each of which
loads a byte or writes a symbol, and ends with the next one, with the symbols of R91 in the first `enclen(len)` cells of its output;
no other cell and nothing else of the machine is changed. -/
def Obligations.EncodeRunsToItsResult : Prop :=
  ∀ (W : Nat) (s : Codec W) (len cap : Idx W), s.busy .enc = false → enclen len.toNat ≤ cap.toNat →
    ∃ t u : Codec W, exec (.encode len.toNat cap.toNat) ⟨W, s⟩ = .next ⟨W, t⟩ ∧
      (∀ k, k ≤ len.toNat + enclen len.toNat → ∃ v : Codec W,
        runBlock .enc k t = .next ⟨W, v⟩ ∧ v.busy .enc = true ∧ v.enc.inIdx.toNat + v.enc.outIdx.toNat = k) ∧
      runBlock .enc (len.toNat + enclen len.toNat + 1) t = .next ⟨W, u⟩ ∧
      u.enc.inIdx = len ∧ u.enc.outIdx.toNat = enclen len.toNat ∧
      u.enc.status.state = .done ∧ u.enc.status.err = .noError ∧ u.enc.status.result.toNat = enclen len.toNat ∧
      u.cells .encObuf (enclen len.toNat) = encRef (s.input .encIbuf len.toNat) ∧
      sameCellsExcept .encObuf (· < enclen len.toNat) s u ∧ sameOutside .enc s u ∧ u.turns = s.turns

/-- R83, R84, R126: a DATALEN over a text without `INVALID` code units is accepted and ends after `len` SCAN steps and one SCAN_END
with `floor(5k/8)`; no buffer and nothing else of the machine is changed. -/
def Obligations.DatalenRunsToItsResult : Prop :=
  ∀ (W : Nat) (s : Codec W) (len cap : Idx W), s.busy .dec = false → allValid (s.input .decIbuf len.toNat) →
    ∃ t u : Codec W, exec (.datalen len.toNat cap.toNat) ⟨W, s⟩ = .next ⟨W, t⟩ ∧
      (∀ k, k ≤ len.toNat → ∃ v : Codec W, runBlock .dec k t = .next ⟨W, v⟩ ∧ v.busy .dec = true ∧
        decSelect v.dec = some (decStepAt len.toNat k)) ∧
      runBlock .dec (len.toNat + 1) t = .next ⟨W, u⟩ ∧
      u.dec.status.state = .done ∧ u.dec.status.err = .noError ∧
      u.dec.status.result.toNat = dataLenOf (s.input .decIbuf len.toNat) ∧
      sameBuffers s u ∧ sameOutside .dec s u ∧ u.turns = s.turns

/-- R110 outcome 3, R126, R127: a DECODE of a text without `INVALID` code units and with room for its output is accepted and ends
after `len` SCAN steps, one SCAN_END, `len` RUN steps and one RUN_END with the bytes of R111 in the first `floor(5k/8)` cells of its
output; no other cell and nothing else of the machine is changed. -/
def Obligations.DecodeRunsToItsResult : Prop :=
  ∀ (W : Nat) (s : Codec W) (len cap : Idx W), s.busy .dec = false → allValid (s.input .decIbuf len.toNat) →
    dataLenOf (s.input .decIbuf len.toNat) ≤ cap.toNat →
    ∃ t u : Codec W, exec (.decode len.toNat cap.toNat) ⟨W, s⟩ = .next ⟨W, t⟩ ∧
      (∀ k, k ≤ 2 * len.toNat + 1 → ∃ v : Codec W, runBlock .dec k t = .next ⟨W, v⟩ ∧ v.busy .dec = true ∧
        decSelect v.dec = some (decStepAt len.toNat k)) ∧
      runBlock .dec (2 * len.toNat + 2) t = .next ⟨W, u⟩ ∧
      u.dec.status.state = .done ∧ u.dec.status.err = .noError ∧
      u.dec.status.result.toNat = dataLenOf (s.input .decIbuf len.toNat) ∧
      decRef (s.input .decIbuf len.toNat) = some (u.cells .decObuf (dataLenOf (s.input .decIbuf len.toNat))) ∧
      sameCellsExcept .decObuf (· < dataLenOf (s.input .decIbuf len.toNat)) s u ∧ sameOutside .dec s u ∧
      u.turns = s.turns

/-- R85, R110 outcome 1, R126, R135: with the first `INVALID` code unit at index `p`, a DATALEN or a DECODE ends after `p + 1` steps,
all of them SCAN, with `INVALID_CHARACTER`, whatever its `cap`; nothing is written. -/
def Obligations.FirstInvalidCharacterEndsTheOperation : Prop :=
  ∀ (W : Nat) (s : Codec W) (len cap : Idx W) (p : Nat), s.busy .dec = false → p < len.toNat →
    allValid (s.input .decIbuf p) → classify (s.readCell .decIbuf p) = .invalid →
    ∀ i ∈ [Instr.datalen len.toNat cap.toNat, Instr.decode len.toNat cap.toNat],
      ∃ t u : Codec W, exec i ⟨W, s⟩ = .next ⟨W, t⟩ ∧
        (∀ k, k ≤ p → ∃ v : Codec W, runBlock .dec k t = .next ⟨W, v⟩ ∧ v.busy .dec = true ∧
          decSelect v.dec = some .scan) ∧
        runBlock .dec (p + 1) t = .next ⟨W, u⟩ ∧ u.dec.status = ⟨.error, .invalidCharacter, 0⟩ ∧
        u.dec.inIdx.toNat = p ∧ u.dec.k.toNat = symCount (s.input .decIbuf p) ∧
        sameBuffers s u ∧ sameOutside .dec s u ∧ u.turns = s.turns

/-- R110 outcome 2, R126, R132: a DECODE whose output buffer is too small ends after `len` SCAN steps and one SCAN_END with
`INSUFFICIENT_OUTPUT_CAPACITY`; nothing is written. -/
def Obligations.TooSmallAnOutputFailsAtomically : Prop :=
  ∀ (W : Nat) (s : Codec W) (len cap : Idx W), s.busy .dec = false → allValid (s.input .decIbuf len.toNat) →
    cap.toNat < dataLenOf (s.input .decIbuf len.toNat) →
    ∃ t u : Codec W, exec (.decode len.toNat cap.toNat) ⟨W, s⟩ = .next ⟨W, t⟩ ∧
      (∀ k, k ≤ len.toNat → ∃ v : Codec W, runBlock .dec k t = .next ⟨W, v⟩ ∧ v.busy .dec = true ∧
        decSelect v.dec = some (decStepAt len.toNat k)) ∧
      runBlock .dec (len.toNat + 1) t = .next ⟨W, u⟩ ∧
      u.dec.status = ⟨.error, .insufficientOutputCapacity, 0⟩ ∧
      sameBuffers s u ∧ sameOutside .dec s u ∧ u.turns = s.turns

/-- R66: the encoder's loop of R91 computes the closed form over the bit stream. -/
def Obligations.EncoderLoopIsTheBitStream : Prop :=
  ∀ bs : List Byte, encRef bs = (List.range (enclen bs.length)).map fun j => alpha (streamSymbol bs j)

/-- R111, R66: the decoder's loop regroups the bits of the symbols into bytes and drops the incomplete last group; it fails
exactly on a text with an `INVALID` code unit. -/
def Obligations.DecoderLoopIsTheBitStream : Prop :=
  ∀ cs : List Byte,
    (allValid cs → decRef cs = some ((List.range (dataLenOf cs)).map (streamByte (symValues cs)))) ∧
    (¬ allValid cs → decRef cs = none)

/-- R123: `=` code units anywhere change neither `datalen` nor the decoded bytes. -/
def Obligations.PaddingChangesNothing : Prop :=
  ∀ cs ds : List Byte, cs.filter (· != padChar) = ds.filter (· != padChar) →
    dataLenOf cs = dataLenOf ds ∧ decRef cs = decRef ds

/-- R125 through both blocks: what ENCODE wrote, with any `=` inserted, put into the decoder's input of any machine, decodes to
the bytes ENCODE read. -/
def Obligations.RoundTripThroughBothBlocks : Prop :=
  ∀ (W : Nat) (s t u v : Codec W) (len cap m cap' : Idx W), s.busy .enc = false → enclen len.toNat ≤ cap.toNat →
    exec (.encode len.toNat cap.toNat) ⟨W, s⟩ = .next ⟨W, t⟩ →
    runBlock .enc (len.toNat + enclen len.toNat + 1) t = .next ⟨W, u⟩ →
    v.busy .dec = false →
    (v.input .decIbuf m.toNat).filter (· != padChar) = u.cells .encObuf (enclen len.toNat) →
    len.toNat ≤ cap'.toNat →
    ∃ t' u' : Codec W, exec (.decode m.toNat cap'.toNat) ⟨W, v⟩ = .next ⟨W, t'⟩ ∧
      runBlock .dec (2 * m.toNat + 2) t' = .next ⟨W, u'⟩ ∧
      u'.dec.status.state = .done ∧ u'.dec.status.result.toNat = len.toNat ∧
      u'.cells .decObuf len.toNat = s.input .encIbuf len.toNat

/-! ### Errors (60_exceptions.md) -/

/-- R133: a running step that leaves `BUSY` for `ERROR` has set `RESULT` to 0 and `ERR` to an exception's code and has stored
nothing; from then on the block has no step while no command is on its port. -/
def Obligations.RaiseEndsTheOperation : Prop :=
  ∀ (W : Nat) (s t : Codec W) (b : Block) (ts : List (Turn W)), s.busy b = true → s.turns = .block b :: ts →
    step ⟨W, s⟩ = .next ⟨W, t⟩ → (t.status b).state = .error →
    (t.status b).result = 0 ∧ (t.status b).err ≠ .noError ∧ sameBuffers s t ∧
    ∀ ts', step ⟨W, (t.setCmd b none).withTurns (.block b :: ts')⟩ = .next ⟨W, (t.setCmd b none).withTurns ts'⟩

/-- R138: a block in `ERROR` is ready, and the next command is accepted there as anywhere, with `ERR` back to `NONE` unless the
accepting step itself raises. -/
def Obligations.NextCommandLeavesTheErrorState : Prop :=
  ∀ (W : Nat) (s : Codec W) (i : Instr), i.wellFormed W = true → (s.status i.block).state = .error →
    s.cmdReady i.block = true ∧
    ∃ t : Codec W, exec i ⟨W, s⟩ = .next ⟨W, t⟩ ∧
      (((t.status i.block).err = .noError ∧ (t.status i.block).state ≠ .error) ∨
        (∃ len cap, i = .encode len cap ∧ cap < enclen len ∧
          t.status .enc = ⟨.error, .insufficientOutputCapacity, 0⟩))

/-- R105: the transitions of ENC's `STATE`, over every step of the machine: nothing, a reset by the host, a command accepted outside
`BUSY`, or a running step, which never raises and never goes to `IDLE`. -/
def Obligations.EncoderStateTransitions : Prop :=
  ∀ (W : Nat) (s : Codec W) (m : State), step ⟨W, s⟩ = .next m →
    ∃ t : Codec W, m = ⟨W, t⟩ ∧
    (t.enc = s.enc ∨
    (t.enc = (Codec.reset W).enc ∧ ∃ ts, s.turns = .host (.reset .enc) :: ts) ∨
    (s.busy .enc = false ∧ t.enc.op = .enclen ∧ t.enc.status.state = .done) ∨
    (s.busy .enc = false ∧ t.enc.op = .encode ∧ enclen t.enc.len.toNat ≤ t.enc.cap.toNat ∧
      t.enc.status.state = .busy) ∨
    (s.busy .enc = false ∧ t.enc.op = .encode ∧ t.enc.cap.toNat < enclen t.enc.len.toNat ∧
      t.enc.status.state = .error) ∨
    (s.busy .enc = true ∧ (t.enc.status.state = .busy ∨ t.enc.status.state = .done)))

/-- R128: the transitions of DEC's `STATE` and `PHASE`, over every step of the machine: nothing, a reset by the host, a command
accepted outside `BUSY`, or a row of the table. -/
def Obligations.DecoderStateTransitions : Prop :=
  ∀ (W : Nat) (s : Codec W) (m : State), step ⟨W, s⟩ = .next m →
    ∃ t : Codec W, m = ⟨W, t⟩ ∧
    (t.dec = s.dec ∨
    (t.dec = (Codec.reset W).dec ∧ ∃ ts, s.turns = .host (.reset .dec) :: ts) ∨
    (s.busy .dec = false ∧ t.dec.status.state = .busy ∧ t.dec.phase = .scan) ∨
    (s.busy .dec = true ∧ s.dec.phase = .scan ∧
      ((t.dec.status.state = .busy ∧ t.dec.phase = .scan) ∨
        (t.dec.status.state = .error ∧ t.dec.status.err = .invalidCharacter) ∨
        (t.dec.op = .datalen ∧ t.dec.status.state = .done) ∨
        (t.dec.op = .decode ∧ t.dec.status.state = .error ∧ t.dec.status.err = .insufficientOutputCapacity) ∨
        (t.dec.op = .decode ∧ t.dec.status.state = .busy ∧ t.dec.phase = .run))) ∨
    (s.busy .dec = true ∧ s.dec.phase = .run ∧
      ((t.dec.status.state = .busy ∧ t.dec.phase = .run) ∨
        (t.dec.status.state = .error ∧ t.dec.status.err = .invalidCharacter) ∨
        (t.dec.status.state = .error ∧ t.dec.status.err = .boundsFault) ∨
        t.dec.status.state = .done)))

/-! ### Reset (70_reset_and_hazards.md) -/

/-- R32: the registers of both blocks after reset, at every width. -/
def Obligations.RegistersAfterReset : Prop :=
  ∀ W : Nat,
    (Codec.reset W).enc =
      { status := ⟨.idle, .noError, 0⟩, op := .enclen, len := 0, cap := 0, req := 0, acc := 0, held := 0, inIdx := 0,
        outIdx := 0 } ∧
    (Codec.reset W).dec =
      { status := ⟨.idle, .noError, 0⟩, op := .datalen, len := 0, cap := 0, phase := .scan, k := 0, req := 0, acc := 0,
        bitsrem := 8, inIdx := 0, outIdx := 0 }

/-- R150, R151: reset of a block, in any state of it: its registers take their reset values, no command is accepted, no buffer
and nothing of the other block is touched; the block is then ready. -/
def Obligations.ResetOfABlock : Prop :=
  ∀ (W : Nat) (s : Codec W) (b : Block) (ts : List (Turn W)), s.turns = .host (.reset b) :: ts →
    ∃ t : Codec W, step ⟨W, s⟩ = .next ⟨W, t⟩ ∧ t.turns = ts ∧ sameBuffers s t ∧ sameOutside b s t ∧
      (b = .enc → t.enc = (Codec.reset W).enc) ∧ (b = .dec → t.dec = (Codec.reset W).dec) ∧
      t.status b = ⟨.idle, .noError, 0⟩ ∧ t.cmdReady b = true

/-! ### Buffers and agents (10_state.md, 20_memory.md) -/

/-- R42, R41: one cell is read or written at a time; a store is seen by reads of its cell and by no other read of any space; the
canonical form is kept. -/
def Obligations.CellsReadBackWhatWasStored : Prop :=
  ∀ (W : Nat) (s : Codec W) (sp : Space) (i : Idx W) (v : Byte),
    (s.writeCell sp i.toNat v).readCell sp i.toNat = v ∧
    (∀ sp' a, sp' ≠ sp ∨ a ≠ i.toNat → (s.writeCell sp i.toNat v).readCell sp' a = s.readCell sp' a) ∧
    (∀ sp', (s.buf sp').wf W = true → ((s.writeCell sp i.toNat v).buf sp').wf W = true)

/-- R22, R29, R30: a running step of a block stores exactly what its write port shows, and nothing else of the machine changes
but the block's registers; an accepting turn, or a turn with nothing to do, stores nothing. -/
def Obligations.BlockTurnStoresWhatThePortShows : Prop :=
  ∀ (W : Nat) (s t : Codec W) (b : Block) (ts : List (Turn W)), s.turns = .block b :: ts → step ⟨W, s⟩ = .next ⟨W, t⟩ →
    t.turns = ts ∧
    (s.obPort b = none → sameBuffers s t) ∧
    (∀ w, s.obPort b = some w →
      t.readCell (obufOf b) w.addr.toNat = w.data ∧ sameCellsExcept (obufOf b) (· = w.addr.toNat) s t) ∧
    (s.busy b = true → sameOutside b s t) ∧
    (s.busy b = false → sameOutside b (s.setCmd b none) (t.setCmd b none))

/-- R101, R44: a step of the machine in which the host does not move leaves each cell of ENC's output as it was, or with the
code unit of a symbol, which is never `=`. -/
def Obligations.EncoderNeverWritesPadding : Prop :=
  ∀ (W : Nat) (s t : Codec W) (a : Nat), (∀ m ts, s.turns ≠ .host m :: ts) → step ⟨W, s⟩ = .next ⟨W, t⟩ →
    t.readCell .encObuf a = s.readCell .encObuf a ∨
    (a = s.enc.outIdx.toNat ∧ t.readCell .encObuf a ≠ padChar ∧ ∃ v, t.readCell .encObuf a = alpha v)

/-- R10, R52: where both blocks can move, the order of their turns does not matter. -/
def Obligations.BlockTurnsCommute : Prop :=
  ∀ (W : Nat) (s : Codec W) (ts : List (Turn W)) (t t' : Codec W),
    step ⟨W, s.withTurns (.block .enc :: ts)⟩ = .next ⟨W, t⟩ →
    step ⟨W, s.withTurns (.block .dec :: ts)⟩ = .next ⟨W, t'⟩ →
    ∃ u : State, Sys2Proof.core.run 2 ⟨W, s.withTurns (.block .enc :: .block .dec :: ts)⟩ = .next u ∧
      Sys2Proof.core.run 2 ⟨W, s.withTurns (.block .dec :: .block .enc :: ts)⟩ = .next u

/-- R48, R154 (U6): a host move that breaks the borrow is refused: a store into a buffer of a `BUSY` block, a read of its output
buffer, a copy out of its output buffer, and a copy into one of its buffers from a cell that may be read. -/
def Obligations.BorrowedBuffersAreRefused : Prop :=
  ∀ (W : Nat) (s : Codec W) (sp sp' : Space) (i j : Idx W) (v : Byte) (ts : List (Turn W)), s.busy sp.block = true →
    (s.turns = .host (.write sp i v) :: ts → step ⟨W, s⟩ = .refused (.borrowedBuffer sp)) ∧
    (sp.isInput = false → s.turns = .host (.read sp i) :: ts → step ⟨W, s⟩ = .refused (.borrowedBuffer sp)) ∧
    (sp.isInput = false → s.turns = .host (.copy sp i sp' j) :: ts → step ⟨W, s⟩ = .refused (.borrowedBuffer sp)) ∧
    (sp'.isInput = true ∨ s.busy sp'.block = false → s.turns = .host (.copy sp' j sp i) :: ts →
      step ⟨W, s⟩ = .refused (.borrowedBuffer sp))

/-- R10, R27, R28, R48: outside the borrow a host store changes its cell alone, a copy stores what the cell read from holds and
changes nothing else, and a read changes nothing; driving and releasing a command port change the inputs of that port alone, and
reading the status port nothing, at any time. That the input buffer of a `BUSY` block may be read, by itself or in a copy, is the
model's choice (log entry 6). -/
def Obligations.HostMovesOutsideTheBorrow : Prop :=
  (∀ (W : Nat) (s : Codec W) (sp : Space) (i : Idx W) (v : Byte) (ts : List (Turn W)), s.busy sp.block = false →
    s.turns = .host (.write sp i v) :: ts →
    ∃ t : Codec W, step ⟨W, s⟩ = .next ⟨W, t⟩ ∧ t.readCell sp i.toNat = v ∧
      (∀ sp' a, sp' ≠ sp ∨ a ≠ i.toNat → t.readCell sp' a = s.readCell sp' a) ∧
      t.enc = s.enc ∧ t.dec = s.dec ∧ t.encCmd = s.encCmd ∧ t.decCmd = s.decCmd ∧ t.turns = ts) ∧
  (∀ (W : Nat) (s : Codec W) (src dst : Space) (i j : Idx W) (ts : List (Turn W)),
    src.isInput = true ∨ s.busy src.block = false → s.busy dst.block = false →
    s.turns = .host (.copy src i dst j) :: ts →
    ∃ t : Codec W, step ⟨W, s⟩ = .next ⟨W, t⟩ ∧ t.readCell dst j.toNat = s.readCell src i.toNat ∧
      (∀ sp' a, sp' ≠ dst ∨ a ≠ j.toNat → t.readCell sp' a = s.readCell sp' a) ∧
      t.enc = s.enc ∧ t.dec = s.dec ∧ t.encCmd = s.encCmd ∧ t.decCmd = s.decCmd ∧ t.turns = ts) ∧
  (∀ (W : Nat) (s : Codec W) (sp : Space) (i : Idx W) (ts : List (Turn W)),
    sp.isInput = true ∨ s.busy sp.block = false → s.turns = .host (.read sp i) :: ts →
    step ⟨W, s⟩ = .next ⟨W, s.withTurns ts⟩) ∧
  (∀ (W : Nat) (s : Codec W) (b : Block) (c : Option (CmdWord W)) (ts : List (Turn W)),
    (∃ w, c = some w ∧ s.turns = .host (.drive b w) :: ts) ∨ (c = none ∧ s.turns = .host (.release b) :: ts) →
    ∃ t : Codec W, step ⟨W, s⟩ = .next ⟨W, t⟩ ∧ t.cmd b = c ∧ (∀ b', b' ≠ b → t.cmd b' = s.cmd b') ∧
      t.enc = s.enc ∧ t.dec = s.dec ∧ sameBuffers s t ∧ t.turns = ts) ∧
  (∀ (W : Nat) (s : Codec W) (b : Block) (ts : List (Turn W)), s.turns = .host (.readStatus b) :: ts →
    step ⟨W, s⟩ = .next ⟨W, s.withTurns ts⟩)

/-! ### Invariants -/

/-- The invariant holds right after reset, of the machine of the default width and of every width a build can have. -/
def Obligations.InvariantAtReset : Prop :=
  State.reset.Inv ∧ ∀ W : Nat, 1 ≤ W → (State.resetAt W).Inv

/-- R99, R121: every step of the machine keeps the invariant, whoever moves. -/
def Obligations.StepKeepsTheInvariant : Prop :=
  ∀ s t : State, s.Inv → step s = .next t → t.Inv

/-- R11, R16: in a state with the invariant every register is in the range its table gives, and (R20, R158) the status registers
agree with each other. -/
def Obligations.RegistersAreInTheirRanges : Prop :=
  ∀ (W : Nat) (s : Codec W), s.Inv →
    s.enc.held.toNat ≤ 12 ∧ s.enc.inIdx.toNat ≤ s.enc.len.toNat ∧ s.enc.outIdx.toNat ≤ s.enc.req.toNat ∧
    s.enc.req.toNat ≤ enclen (2 ^ W - 1) ∧ s.enc.status.result.toNat ≤ enclen (2 ^ W - 1) ∧
    (s.enc.status.err = .noError ∨ s.enc.status.err = .insufficientOutputCapacity) ∧
    s.dec.k.toNat ≤ s.dec.len.toNat ∧ s.dec.acc.toNat ≤ 127 ∧ 1 ≤ s.dec.bitsrem.toNat ∧ s.dec.bitsrem.toNat ≤ 8 ∧
    s.dec.inIdx.toNat ≤ s.dec.len.toNat ∧ s.dec.outIdx.toNat ≤ s.dec.req.toNat ∧
    s.dec.req.toNat ≤ dataLen (2 ^ W - 1) ∧ s.dec.status.result.toNat ≤ dataLen (2 ^ W - 1) ∧
    ∀ b, ((s.status b).err = .noError ↔ (s.status b).state ≠ .error) ∧
      ((s.status b).state ≠ .done → (s.status b).result = 0)

/-- R163, R93, R128: in a state with the invariant a `BUSY` block always has a step, and no step of the machine faults. -/
def Obligations.BusyBlockAlwaysHasAStep : Prop :=
  ∀ (W : Nat) (s : Codec W), s.Inv →
    (∀ f, step ⟨W, s⟩ ≠ .fault f) ∧
    (∀ b ts, s.busy b = true → s.turns = .block b :: ts → ∃ t, step ⟨W, s⟩ = .next ⟨W, t⟩)

/-- R117, R118, R134: in a state with the invariant the two raises of the RUN pass do not happen. -/
def Obligations.RunPassNeverRaises : Prop :=
  ∀ (W : Nat) (s t : Codec W) (ts : List (Turn W)), s.Inv → s.busy .dec = true → s.dec.phase = .run →
    s.turns = .block .dec :: ts → step ⟨W, s⟩ = .next ⟨W, t⟩ → t.dec.status.state ≠ .error

/-- R75, `WAIT`: while the block is `BUSY` the wait stays and the block makes its running step (the model's choice, log entry 13);
once it is not, the wait is over and nothing else changes. -/
def Obligations.WaitLastsWhileTheBlockIsBusy : Prop :=
  ∀ (W : Nat) (s : Codec W) (b : Block) (ts : List (Turn W)), s.turns = .wait b :: ts →
    (s.busy b = false → step ⟨W, s⟩ = .next ⟨W, s.withTurns ts⟩) ∧
    (s.busy b = true → step ⟨W, s⟩ = runStep b s ∧ ∀ t : Codec W, step ⟨W, s⟩ = .next ⟨W, t⟩ → t.turns = s.turns)

/-! ### Step counts (41_encoder.md, 42_decoder.md, 70_reset_and_hazards.md) and the width (00_scope.md) -/

/-- R162, with R103 and R126: from every state in which its block is not `BUSY`, every command is accepted, and its block is `BUSY`
for exactly `stepCount` steps, the steps of DEC being those of R126 in their order; then the operation is over. -/
def Obligations.EveryOperationTakesItsStepCount : Prop :=
  ∀ (W : Nat) (s : Codec W) (i : Instr), i.wellFormed W = true → s.busy i.block = false →
    ∃ t u : Codec W, exec i ⟨W, s⟩ = .next ⟨W, t⟩ ∧
      (∀ k, k < stepCount i (s.input (ibufOf i.block) i.len) → ∃ v : Codec W,
        runBlock i.block k t = .next ⟨W, v⟩ ∧ v.busy i.block = true ∧
        (i.block = .dec → decSelect v.dec = some (decStepAt i.len k))) ∧
      runBlock i.block (stepCount i (s.input (ibufOf i.block) i.len)) t = .next ⟨W, u⟩ ∧ u.busy i.block = false

/-- R5: `W` is an argument of the machine: no command and no step changes it, nor does placing a command. -/
def Obligations.TheWidthNeverChanges : Prop :=
  ∀ s t : State,
    (step s = .next t → t.W = s.W) ∧ (∀ i, exec i s = .next t → t.W = s.W) ∧
    ∀ nbits w, (s.withFetchWord nbits w).W = s.W
end

