-- ==== Sys2Proof/Laws/Numbers.lean ====
section
/-! SUPPORT. The bit-vector computations of the steps as numbers, and when they are exact. -/

namespace Sys2Proof.Machine

/-- An index below another of its width is counted up exactly. -/
theorem toNat_succ_of_lt {W : Nat} {a b : BitVec W} (h : a.toNat < b.toNat) : (a + 1).toNat = a.toNat + 1 := by
  have hb := b.isLt
  have h1 : (1 : BitVec W).toNat = 1 % 2 ^ W := by rw [BitVec.ofNat_eq_ofNat, BitVec.toNat_ofNat]
  have h2 : 1 % 2 ^ W = 1 := Nat.mod_eq_of_lt (by omega)
  rw [BitVec.toNat_add, h1, h2]
  exact Nat.mod_eq_of_lt (by omega)

theorem enclen_eq (n : Nat) : enclen n = (8 * n + 4) / 5 := by
  unfold enclen
  simp only
  split <;> omega

theorem dataLen_mono {a b : Nat} (h : a ≤ b) : dataLen a ≤ dataLen b := by
  unfold dataLen
  omega

/-- `REQ` of ENC holds `enclen(len)` exactly (R82). -/
theorem enclen_toNat {W : Nat} (n : Idx W) : (BitVec.ofNat (W + 1) (enclen n.toNat)).toNat = enclen n.toNat := by
  have hn := n.isLt
  rw [BitVec.toNat_ofNat]
  refine Nat.mod_eq_of_lt ?_
  rw [enclen_eq, pow_succ]
  omega

/-- `REQ` of DEC holds `floor(5k/8)` exactly (R84). -/
theorem dataLen_toNat {W : Nat} (k : Idx W) : (BitVec.ofNat (W + 1) (dataLen k.toNat)).toNat = dataLen k.toNat := by
  have hk := k.isLt
  rw [BitVec.toNat_ofNat]
  refine Nat.mod_eq_of_lt ?_
  rw [dataLen, pow_succ]
  omega

/-- `RESULT` holds `OUT_IDX` exactly (R98, R120). -/
theorem count_toNat {W : Nat} (i : Idx W) : (BitVec.ofNat (W + 1) i.toNat).toNat = i.toNat := by
  have hi := i.isLt
  rw [BitVec.toNat_ofNat]
  exact Nat.mod_eq_of_lt (by rw [pow_succ]; omega)

/-- LOAD keeps the four youngest bits above the new byte (R94). -/
theorem encPushByte_toNat (acc : Acc) (b : Byte) : (encPushByte acc b).toNat = acc.toNat % 16 * 256 + b.toNat := by
  have hb := b.isLt
  have ha := acc.isLt
  unfold encPushByte
  rw [BitVec.toNat_or, BitVec.toNat_shiftLeft, BitVec.toNat_setWidth, Nat.mod_eq_of_lt (a := b.toNat) (by omega),
    Nat.shiftLeft_eq, show acc.toNat * 2 ^ 8 % 2 ^ 12 = (acc.toNat % 16) <<< 8 by rw [Nat.shiftLeft_eq]; omega,
    ← Nat.shiftLeft_add_eq_or_of_lt (by omega), Nat.shiftLeft_eq]

/-- A RUN step shifts the symbol in below the 7 youngest bits (R115). -/
theorem decPushSymbol_toNat (acc : Acc) (v : SymVal) :
    (decPushSymbol acc v).toNat = (acc.toNat * 32 + v.toNat) % 4096 := by
  have hv := v.isLt
  have ha := acc.isLt
  unfold decPushSymbol
  rw [BitVec.toNat_or, BitVec.toNat_shiftLeft, BitVec.toNat_setWidth, Nat.mod_eq_of_lt (a := v.toNat) (by omega),
    Nat.shiftLeft_eq, show acc.toNat * 2 ^ 5 % 2 ^ 12 = (acc.toNat % 128) <<< 5 by rw [Nat.shiftLeft_eq]; omega,
    ← Nat.shiftLeft_add_eq_or_of_lt (by omega), Nat.shiftLeft_eq]
  omega

/-- A RUN step keeps the low `-t` bits (R115). -/
theorem decLowBits_toNat (a : Acc) (t : Int) (h : -5 ≤ t) : (decLowBits a t).toNat = a.toNat % 2 ^ (-t).toNat := by
  unfold decLowBits
  have hn : (-t).toNat ≤ 5 := by omega
  generalize (-t).toNat = n at *
  rw [BitVec.toNat_and, ← Nat.and_two_pow_sub_one_eq_mod]
  congr 1
  obtain rfl | rfl | rfl | rfl | rfl | rfl : n = 0 ∨ n = 1 ∨ n = 2 ∨ n = 3 ∨ n = 4 ∨ n = 5 := by omega
  all_goals rfl

end Sys2Proof.Machine
end

