-- ==== Sys2Proof/Laws/State.lean ====
section
/-! SUPPORT. One lemma per field and update of the state, each true by `rfl`: later proofs use these and do not unfold an
update. -/

namespace Sys2Proof.Machine

variable {W : Nat}

@[simp] theorem Codec.withEnc_enc (s : Codec W) (r : EncRegs W) : (s.withEnc r).enc = r := rfl

@[simp] theorem Codec.withEnc_dec (s : Codec W) (r : EncRegs W) : (s.withEnc r).dec = s.dec := rfl

@[simp] theorem Codec.withEnc_encIbuf (s : Codec W) (r : EncRegs W) : (s.withEnc r).encIbuf = s.encIbuf := rfl

@[simp] theorem Codec.withEnc_encObuf (s : Codec W) (r : EncRegs W) : (s.withEnc r).encObuf = s.encObuf := rfl

@[simp] theorem Codec.withEnc_decIbuf (s : Codec W) (r : EncRegs W) : (s.withEnc r).decIbuf = s.decIbuf := rfl

@[simp] theorem Codec.withEnc_decObuf (s : Codec W) (r : EncRegs W) : (s.withEnc r).decObuf = s.decObuf := rfl

@[simp] theorem Codec.withEnc_encCmd (s : Codec W) (r : EncRegs W) : (s.withEnc r).encCmd = s.encCmd := rfl

@[simp] theorem Codec.withEnc_decCmd (s : Codec W) (r : EncRegs W) : (s.withEnc r).decCmd = s.decCmd := rfl

@[simp] theorem Codec.withEnc_turns (s : Codec W) (r : EncRegs W) : (s.withEnc r).turns = s.turns := rfl

@[simp] theorem Codec.withDec_enc (s : Codec W) (r : DecRegs W) : (s.withDec r).enc = s.enc := rfl

@[simp] theorem Codec.withDec_dec (s : Codec W) (r : DecRegs W) : (s.withDec r).dec = r := rfl

@[simp] theorem Codec.withDec_encIbuf (s : Codec W) (r : DecRegs W) : (s.withDec r).encIbuf = s.encIbuf := rfl

@[simp] theorem Codec.withDec_encObuf (s : Codec W) (r : DecRegs W) : (s.withDec r).encObuf = s.encObuf := rfl

@[simp] theorem Codec.withDec_decIbuf (s : Codec W) (r : DecRegs W) : (s.withDec r).decIbuf = s.decIbuf := rfl

@[simp] theorem Codec.withDec_decObuf (s : Codec W) (r : DecRegs W) : (s.withDec r).decObuf = s.decObuf := rfl

@[simp] theorem Codec.withDec_encCmd (s : Codec W) (r : DecRegs W) : (s.withDec r).encCmd = s.encCmd := rfl

@[simp] theorem Codec.withDec_decCmd (s : Codec W) (r : DecRegs W) : (s.withDec r).decCmd = s.decCmd := rfl

@[simp] theorem Codec.withDec_turns (s : Codec W) (r : DecRegs W) : (s.withDec r).turns = s.turns := rfl

@[simp] theorem Codec.withTurns_enc (s : Codec W) (ts : List (Turn W)) : (s.withTurns ts).enc = s.enc := rfl

@[simp] theorem Codec.withTurns_dec (s : Codec W) (ts : List (Turn W)) : (s.withTurns ts).dec = s.dec := rfl

@[simp] theorem Codec.withTurns_encIbuf (s : Codec W) (ts : List (Turn W)) : (s.withTurns ts).encIbuf = s.encIbuf := rfl

@[simp] theorem Codec.withTurns_encObuf (s : Codec W) (ts : List (Turn W)) : (s.withTurns ts).encObuf = s.encObuf := rfl

@[simp] theorem Codec.withTurns_decIbuf (s : Codec W) (ts : List (Turn W)) : (s.withTurns ts).decIbuf = s.decIbuf := rfl

@[simp] theorem Codec.withTurns_decObuf (s : Codec W) (ts : List (Turn W)) : (s.withTurns ts).decObuf = s.decObuf := rfl

@[simp] theorem Codec.withTurns_encCmd (s : Codec W) (ts : List (Turn W)) : (s.withTurns ts).encCmd = s.encCmd := rfl

@[simp] theorem Codec.withTurns_decCmd (s : Codec W) (ts : List (Turn W)) : (s.withTurns ts).decCmd = s.decCmd := rfl

@[simp] theorem Codec.withTurns_turns (s : Codec W) (ts : List (Turn W)) : (s.withTurns ts).turns = ts := rfl

@[simp] theorem Codec.setCmd_enc (s : Codec W) (b : Block) (c : Option (CmdWord W)) : (s.setCmd b c).enc = s.enc := by
  cases b <;> rfl

@[simp] theorem Codec.setBuf_enc (s : Codec W) (sp : Space) (m : Memory) : (s.setBuf sp m).enc = s.enc := by
  cases sp <;> rfl

@[simp] theorem Codec.setCmd_dec (s : Codec W) (b : Block) (c : Option (CmdWord W)) : (s.setCmd b c).dec = s.dec := by
  cases b <;> rfl

@[simp] theorem Codec.setBuf_dec (s : Codec W) (sp : Space) (m : Memory) : (s.setBuf sp m).dec = s.dec := by
  cases sp <;> rfl

@[simp] theorem Codec.setCmd_turns (s : Codec W) (b : Block) (c : Option (CmdWord W)) : (s.setCmd b c).turns = s.turns := by
  cases b <;> rfl

@[simp] theorem Codec.setBuf_turns (s : Codec W) (sp : Space) (m : Memory) : (s.setBuf sp m).turns = s.turns := by
  cases sp <;> rfl

@[simp] theorem Codec.setBuf_encCmd (s : Codec W) (sp : Space) (m : Memory) : (s.setBuf sp m).encCmd = s.encCmd := by
  cases sp <;> rfl

@[simp] theorem Codec.setBuf_decCmd (s : Codec W) (sp : Space) (m : Memory) : (s.setBuf sp m).decCmd = s.decCmd := by
  cases sp <;> rfl

@[simp] theorem Codec.withEnc_buf (s : Codec W) (r : EncRegs W) (sp : Space) : (s.withEnc r).buf sp = s.buf sp := by
  cases sp <;> rfl

@[simp] theorem Codec.withEnc_cmd (s : Codec W) (r : EncRegs W) (b : Block) : (s.withEnc r).cmd b = s.cmd b := by
  cases b <;> rfl

@[simp] theorem Codec.withDec_buf (s : Codec W) (r : DecRegs W) (sp : Space) : (s.withDec r).buf sp = s.buf sp := by
  cases sp <;> rfl

@[simp] theorem Codec.withDec_cmd (s : Codec W) (r : DecRegs W) (b : Block) : (s.withDec r).cmd b = s.cmd b := by
  cases b <;> rfl

@[simp] theorem Codec.withTurns_buf (s : Codec W) (ts : List (Turn W)) (sp : Space) : (s.withTurns ts).buf sp = s.buf sp := by
  cases sp <;> rfl

@[simp] theorem Codec.withTurns_cmd (s : Codec W) (ts : List (Turn W)) (b : Block) : (s.withTurns ts).cmd b = s.cmd b := by
  cases b <;> rfl

@[simp] theorem Codec.setCmd_buf (s : Codec W) (b : Block) (c : Option (CmdWord W)) (sp : Space) :
    (s.setCmd b c).buf sp = s.buf sp := by
  cases b <;> cases sp <;> rfl

@[simp] theorem Codec.setBuf_cmd (s : Codec W) (sp : Space) (m : Memory) (b : Block) : (s.setBuf sp m).cmd b = s.cmd b := by
  cases b <;> cases sp <;> rfl

@[simp] theorem Codec.setCmd_cmd_same (s : Codec W) (b : Block) (c : Option (CmdWord W)) : (s.setCmd b c).cmd b = c := by
  cases b <;> rfl

@[simp] theorem Codec.setBuf_buf_same (s : Codec W) (sp : Space) (m : Memory) : (s.setBuf sp m).buf sp = m := by
  cases sp <;> rfl

theorem Codec.setBuf_buf_other (s : Codec W) {sp sp' : Space} (m : Memory) (h : sp' ≠ sp) :
    (s.setBuf sp m).buf sp' = s.buf sp' := by
  cases sp <;> cases sp' <;> first | rfl | exact absurd rfl h

@[simp] theorem Codec.withTurns_turns_self (s : Codec W) : s.withTurns s.turns = s := rfl

@[simp] theorem Codec.withTurns_withTurns (s : Codec W) (ts us : List (Turn W)) : (s.withTurns ts).withTurns us = s.withTurns us := rfl

@[simp] theorem Codec.withTurns_status (s : Codec W) (ts : List (Turn W)) (b : Block) : (s.withTurns ts).status b = s.status b := by
  cases b <;> rfl

@[simp] theorem Codec.setCmd_status (s : Codec W) (b' : Block) (c : Option (CmdWord W)) (b : Block) :
    (s.setCmd b' c).status b = s.status b := by
  cases b <;> cases b' <;> rfl

@[simp] theorem Codec.setBuf_status (s : Codec W) (sp : Space) (m : Memory) (b : Block) :
    (s.setBuf sp m).status b = s.status b := by
  cases b <;> cases sp <;> rfl

@[simp] theorem Codec.withTurns_busy (s : Codec W) (ts : List (Turn W)) (b : Block) : (s.withTurns ts).busy b = s.busy b := by
  simp [Codec.busy]

@[simp] theorem Codec.setCmd_busy (s : Codec W) (b' : Block) (c : Option (CmdWord W)) (b : Block) :
    (s.setCmd b' c).busy b = s.busy b := by
  simp [Codec.busy]

@[simp] theorem Codec.setBuf_busy (s : Codec W) (sp : Space) (m : Memory) (b : Block) : (s.setBuf sp m).busy b = s.busy b := by
  simp [Codec.busy]

theorem Codec.busy_iff (s : Codec W) (b : Block) : s.busy b = true ↔ (s.status b).state = .busy := by
  simp [Codec.busy]

theorem Codec.not_busy_iff (s : Codec W) (b : Block) : s.busy b = false ↔ (s.status b).state ≠ .busy := by
  simp [Codec.busy]

@[simp] theorem Codec.withTurns_ibRdata (s : Codec W) (ts : List (Turn W)) (sp : Space) (a : Option (Idx W)) :
    (s.withTurns ts).ibRdata sp a = s.ibRdata sp a := by
  cases a <;> simp [Codec.ibRdata, Codec.readCell]

@[simp] theorem Codec.setCmd_ibRdata (s : Codec W) (b : Block) (c : Option (CmdWord W)) (sp : Space) (a : Option (Idx W)) :
    (s.setCmd b c).ibRdata sp a = s.ibRdata sp a := by
  cases a <;> simp [Codec.ibRdata, Codec.readCell]

end Sys2Proof.Machine
end

