-- ==== Sys2Proof/Laws/Memory.lean ====
section
/-! SUPPORT. The laws of one space (read after write, canonical form) and of the cells of the state. -/

namespace Sys2Proof.Machine

@[simp] theorem Memory.get_set_same (m : Memory) (a : Nat) (v : Byte) : (Memory.set m a v).get a = some v := by
  induction m with
  | nil => simp [Memory.set, Memory.get]
  | cons c m ih =>
    obtain ⟨b, w⟩ := c
    rcases Nat.lt_trichotomy a b with h | h | h
    · simp [Memory.set, Memory.get, h]
    · simp [Memory.set, Memory.get, h]
    · have h1 : ¬ a < b := by omega
      have h2 : ¬ a = b := by omega
      simp [Memory.set, Memory.get, h1, h2, ih]

theorem Memory.get_set_other (m : Memory) {a a' : Nat} (v : Byte) (h : a' ≠ a) :
    (Memory.set m a v).get a' = m.get a' := by
  induction m with
  | nil => simp [Memory.set, Memory.get, h]
  | cons c m ih =>
    obtain ⟨b, w⟩ := c
    rcases Nat.lt_trichotomy a b with h0 | h0 | h0
    · simp [Memory.set, Memory.get, h0, h]
    · subst h0; simp [Memory.set, Memory.get, h]
    · have h1 : ¬ a < b := by omega
      have h2 : ¬ a = b := by omega
      simp [Memory.set, Memory.get, h1, h2, ih]

theorem Memory.rising_mono {hi lo lo' : Nat} {m : Memory} (hle : lo' ≤ lo) (h : Memory.rising hi lo m = true) :
    Memory.rising hi lo' m = true := by
  cases m with
  | nil => rfl
  | cons c m => simp [Memory.rising] at h ⊢; exact ⟨⟨by omega, h.1.2⟩, h.2⟩

theorem Memory.rising_set {hi lo a : Nat} {m : Memory} (v : Byte) (hlo : lo ≤ a) (hhi : a < hi)
    (h : Memory.rising hi lo m = true) : Memory.rising hi lo (Memory.set m a v) = true := by
  induction m generalizing lo with
  | nil => simp [Memory.set, Memory.rising, hlo, hhi]
  | cons c m ih =>
    obtain ⟨b, w⟩ := c
    simp only [Memory.rising, Bool.and_eq_true, decide_eq_true_eq] at h
    rcases Nat.lt_trichotomy a b with h0 | h0 | h0
    · simp only [Memory.set, h0, if_true, Memory.rising, Bool.and_eq_true, decide_eq_true_eq]
      exact ⟨⟨hlo, hhi⟩, ⟨by omega, h.1.2⟩, h.2⟩
    · subst h0
      simp only [Memory.set, Nat.lt_irrefl, if_false, if_true, Memory.rising, Bool.and_eq_true, decide_eq_true_eq]
      exact ⟨⟨hlo, hhi⟩, h.2⟩
    · have h1 : ¬ a < b := by omega
      have h2 : ¬ a = b := by omega
      simp only [Memory.set, h1, h2, if_false, Memory.rising, Bool.and_eq_true, decide_eq_true_eq]
      exact ⟨h.1, ih (by omega) h.2⟩

/-- Every store of a byte at an index of the space keeps the canonical form. -/
theorem Memory.wf_set {W a : Nat} {m : Memory} (v : Byte) (ha : a < 2 ^ W) (h : Memory.wf W m = true) :
    Memory.wf W (Memory.set m a v) = true :=
  Memory.rising_set v (Nat.zero_le _) ha h

/-- The four spaces of the reset state have the canonical form. -/
theorem Codec.reset_wf (W : Nat) (sp : Space) : ((Codec.reset W).buf sp).wf W = true := by
  cases sp <;> rfl

/-- Reading a cell depends on nothing but its space. -/
theorem Codec.readCell_congr {W : Nat} {s t : Codec W} {sp : Space} (h : t.buf sp = s.buf sp) (a : Nat) :
    t.readCell sp a = s.readCell sp a := by
  simp [Codec.readCell, h]

@[simp] theorem Codec.withEnc_readCell {W : Nat} (s : Codec W) (r : EncRegs W) (sp : Space) :
    (s.withEnc r).readCell sp = s.readCell sp := by
  funext a; simp [Codec.readCell]

@[simp] theorem Codec.withDec_readCell {W : Nat} (s : Codec W) (r : DecRegs W) (sp : Space) :
    (s.withDec r).readCell sp = s.readCell sp := by
  funext a; simp [Codec.readCell]

@[simp] theorem Codec.withTurns_readCell {W : Nat} (s : Codec W) (ts : List (Turn W)) (sp : Space) :
    (s.withTurns ts).readCell sp = s.readCell sp := by
  funext a; simp [Codec.readCell]

@[simp] theorem Codec.setCmd_readCell {W : Nat} (s : Codec W) (b : Block) (c : Option (CmdWord W)) (sp : Space) :
    (s.setCmd b c).readCell sp = s.readCell sp := by
  funext a; simp [Codec.readCell]

theorem Codec.writeCell_readCell_same {W : Nat} (s : Codec W) (sp : Space) (i : Nat) (v : Byte) :
    (s.writeCell sp i v).readCell sp i = v := by
  simp [Codec.readCell, Codec.writeCell]

theorem Codec.writeCell_readCell_other {W : Nat} (s : Codec W) {sp sp' : Space} {i a : Nat} (v : Byte) (h : sp' ≠ sp ∨ a ≠ i) :
    (s.writeCell sp i v).readCell sp' a = s.readCell sp' a := by
  by_cases hs : sp' = sp
  · subst hs
    simp [Codec.readCell, Codec.writeCell, Memory.get_set_other _ v (h.resolve_left (by simp))]
  · simp [Codec.readCell, Codec.writeCell, Codec.setBuf_buf_other s _ hs]

/-- What a store of the write port does to the buffers: nothing, or one cell of the space. -/
theorem Codec.applyWrite_buf_other {W : Nat} (s : Codec W) {sp sp' : Space} (w : Option (ObWrite W)) (h : sp' ≠ sp) :
    (s.applyWrite sp w).buf sp' = s.buf sp' := by
  cases w with
  | none => rfl
  | some w => simp [Codec.applyWrite, Codec.writeCell, Codec.setBuf_buf_other s _ h]

@[simp] theorem Codec.applyWrite_enc {W : Nat} (s : Codec W) (sp : Space) (w : Option (ObWrite W)) :
    (s.applyWrite sp w).enc = s.enc := by
  cases w <;> simp [Codec.applyWrite, Codec.writeCell]

@[simp] theorem Codec.applyWrite_dec {W : Nat} (s : Codec W) (sp : Space) (w : Option (ObWrite W)) :
    (s.applyWrite sp w).dec = s.dec := by
  cases w <;> simp [Codec.applyWrite, Codec.writeCell]

@[simp] theorem Codec.applyWrite_turns {W : Nat} (s : Codec W) (sp : Space) (w : Option (ObWrite W)) :
    (s.applyWrite sp w).turns = s.turns := by
  cases w <;> simp [Codec.applyWrite, Codec.writeCell]

@[simp] theorem Codec.applyWrite_encCmd {W : Nat} (s : Codec W) (sp : Space) (w : Option (ObWrite W)) :
    (s.applyWrite sp w).encCmd = s.encCmd := by
  cases w <;> simp [Codec.applyWrite, Codec.writeCell]

@[simp] theorem Codec.applyWrite_decCmd {W : Nat} (s : Codec W) (sp : Space) (w : Option (ObWrite W)) :
    (s.applyWrite sp w).decCmd = s.decCmd := by
  cases w <;> simp [Codec.applyWrite, Codec.writeCell]

/-- The cells of a space after the store of a write port, as a function of the cells before. -/
def patched {W : Nat} (cells : Nat → Byte) : Option (ObWrite W) → Nat → Byte
  | none => cells
  | some w => fun a => if a = w.addr.toNat then w.data else cells a

theorem Codec.applyWrite_readCell {W : Nat} (s : Codec W) (sp : Space) (w : Option (ObWrite W)) :
    (s.applyWrite sp w).readCell sp = patched (s.readCell sp) w := by
  cases w with
  | none => rfl
  | some w =>
    funext a
    by_cases h : a = w.addr.toNat
    · subst h; simp [Codec.applyWrite, patched, Codec.writeCell_readCell_same]
    · simp [Codec.applyWrite, patched, h, Codec.writeCell_readCell_other s w.data (.inr h)]

end Sys2Proof.Machine
end

