-- ==== Sys2Proof/Laws/Stream.lean ====
section
/-! SUPPORT. The laws of the bit stream (R66) and of the symbols of a text (R63, R84). -/

namespace Sys2Proof.Machine

theorem bitsVal_add (bit : Nat → Bool) (p n m : Nat) :
    bitsVal bit p (n + m) = bitsVal bit p n * 2 ^ m + bitsVal bit (p + n) m := by
  induction m with
  | zero => simp [bitsVal]
  | succ m ih => rw [← Nat.add_assoc, bitsVal, ih, bitsVal, pow_succ, Nat.add_assoc p n m]; ring

theorem bitsVal_lt (bit : Nat → Bool) (p n : Nat) : bitsVal bit p n < 2 ^ n := by
  induction n with
  | zero => simp [bitsVal]
  | succ n ih => rw [bitsVal, pow_succ]; have := Bool.toNat_le (bit (p + n)); omega

theorem bitsVal_congr {bit bit' : Nat → Bool} {p q n : Nat} (h : ∀ i, i < n → bit (p + i) = bit' (q + i)) :
    bitsVal bit p n = bitsVal bit' q n := by
  induction n with
  | zero => rfl
  | succ n ih => rw [bitsVal, bitsVal, ih (fun i hi => h i (by omega)), h n (by omega)]

theorem bitsVal_zero {bit : Nat → Bool} {p n : Nat} (h : ∀ i, i < n → bit (p + i) = false) : bitsVal bit p n = 0 := by
  induction n with
  | zero => rfl
  | succ n ih => rw [bitsVal, ih (fun i hi => h i (by omega)), h n (by omega)]; rfl

/-- A byte is the number of its eight bits, highest first. -/
theorem byteBit_byte (bs : List Byte) (i : Nat) : bitsVal (byteBit bs) (8 * i) 8 = (bs.getD i 0).toNat := by
  have h : ∀ b : Byte, bitsVal (fun i => b.getLsbD (7 - i)) 0 8 = b.toNat := by decide +kernel
  rw [← h]
  refine bitsVal_congr fun k hk => ?_
  rw [byteBit, show (8 * i + k) / 8 = i by omega, show (8 * i + k) % 8 = k by omega, Nat.zero_add]

/-- A symbol value is the number of its five bits, highest first. -/
theorem symBit_sym (vs : List SymVal) (i : Nat) : bitsVal (symBit vs) (5 * i) 5 = (vs.getD i 0).toNat := by
  have h : ∀ v : SymVal, bitsVal (fun i => v.getLsbD (4 - i)) 0 5 = v.toNat := by decide +kernel
  rw [← h]
  refine bitsVal_congr fun k hk => ?_
  rw [symBit, show (5 * i + k) / 5 = i by omega, show (5 * i + k) % 5 = k by omega, Nat.zero_add]

/-- The stream of a byte sequence goes on with zeros. -/
theorem byteBit_end (bs : List Byte) (n : Nat) : bitsVal (byteBit bs) (8 * bs.length) n = 0 := by
  refine bitsVal_zero fun i _ => ?_
  rw [byteBit, List.getD_eq_default _ _ (by omega)]
  simp

theorem input_length {W : Nat} (s : Codec W) (sp : Space) (n : Nat) : (s.input sp n).length = n := by
  simp [Codec.input, Codec.cells]

theorem input_getD {W : Nat} (s : Codec W) (sp : Space) {n i : Nat} (h : i < n) : (s.input sp n).getD i 0 = s.readCell sp i := by
  simp [Codec.input, Codec.cells, h, List.getD_eq_getElem?_getD]

theorem input_congr {W : Nat} {s t : Codec W} {sp : Space} (h : t.buf sp = s.buf sp) (n : Nat) : t.input sp n = s.input sp n := by
  have : t.readCell sp = s.readCell sp := funext (Codec.readCell_congr h)
  simp [Codec.input, Codec.cells, this]

@[simp] theorem symCount_nil : symCount [] = 0 := rfl

theorem symValues_append (a b : List Byte) : symValues (a ++ b) = symValues a ++ symValues b := by
  simp [symValues]

theorem symCount_sym {c : Byte} {v : SymVal} (h : classify c = .sym v) : symCount [c] = 1 := by
  simp [symCount, symValues, h]

theorem symCount_pad {c : Byte} (h : classify c = .pad) : symCount [c] = 0 := by
  simp [symCount, symValues, h]

theorem symCount_le (cs : List Byte) : symCount cs ≤ cs.length := List.length_filterMap_le _ _

theorem take_succ_getD (cs : List Byte) {i : Nat} (h : i < cs.length) : cs.take (i + 1) = cs.take i ++ [cs.getD i 0] := by
  rw [List.take_add_one]
  simp [h]

theorem symCount_take (cs : List Byte) {i : Nat} (h : i < cs.length) :
    symCount (cs.take (i + 1)) = symCount (cs.take i) + symCount [cs.getD i 0] := by
  rw [take_succ_getD cs h]
  simp [symCount, symValues_append]

theorem allValid_take (cs : List Byte) {i : Nat} (h : i < cs.length) (hv : allValid (cs.take i))
    (hc : classify (cs.getD i 0) ≠ .invalid) : allValid (cs.take (i + 1)) := by
  rw [take_succ_getD cs h]
  intro c hc'
  rcases List.mem_append.1 hc' with h | h
  · exact hv c h
  · obtain rfl := List.mem_singleton.1 h
    exact hc

/-- `firstInvalid` finds nothing exactly in a text without `INVALID` code units. -/
theorem firstInvalid_eq_none {cs : List Byte} : firstInvalid cs = none ↔ allValid cs := by
  simp [firstInvalid, allValid, List.findIdx?_eq_none_iff]

/-- What `firstInvalid` finds is an `INVALID` code unit with none before it. -/
theorem firstInvalid_eq_some {cs : List Byte} {p : Nat} (h : firstInvalid cs = some p) :
    p < cs.length ∧ classify (cs.getD p 0) = .invalid ∧ ∀ j, j < p → classify (cs.getD j 0) ≠ .invalid := by
  unfold firstInvalid at h
  rw [List.findIdx?_eq_some_iff_getElem] at h
  obtain ⟨hp, h1, h2⟩ := h
  refine ⟨hp, by simpa [hp] using h1, fun j hj => ?_⟩
  have := h2 j hj
  simpa [hj.trans hp] using this

/-- A symbol at index `i` of a text is the next of its symbol values. -/
theorem symValues_getD (cs : List Byte) {i : Nat} {v : SymVal} (h : i < cs.length) (hc : classify (cs.getD i 0) = .sym v) :
    (symValues cs).getD (symCount (cs.take i)) 0 = v ∧ symCount (cs.take i) < symCount cs := by
  have h1 : cs = cs.take i ++ [cs.getD i 0] ++ cs.drop (i + 1) := by
    rw [← take_succ_getD cs h, List.take_append_drop]
  have h2 : symValues [cs.getD i 0] = [v] := by
    simp only [symValues, List.filterMap_cons, hc, List.filterMap_nil]
  have h3 : symValues cs = symValues (cs.take i) ++ v :: symValues (cs.drop (i + 1)) := by
    conv_lhs => rw [h1]
    rw [symValues_append, symValues_append, h2]
    simp
  constructor
  · rw [h3, symCount]
    simp [List.getD_eq_getElem?_getD]
  · simp only [symCount, h3, List.length_append, List.length_cons]
    omega

end Sys2Proof.Machine
end

