-- ==== Sys2Proof/Laws/Turns.lean ====
section
/-! SUPPORT. What each shared operation of a turn can do, said once: the running steps, the offer of a command, a move of the
host, and the step of the machine. Every next state has the width of the state before. -/

namespace Sys2Proof.Machine

/-- A running step of ENC that answers a next state ran the selected step. -/
theorem encRunStep_next {W : Nat} {s : Codec W} {t : State} (h : encRunStep s = .next t) :
    ∃ k, encSelect s.enc = some k ∧
      t = ⟨W, (s.withEnc (encNext s.enc (s.ibRdata .encIbuf (encReadAddr s.enc k)) k)).applyWrite .encObuf
        (encWrite s.enc k)⟩ := by
  unfold encRunStep at h
  split at h
  · cases h
  · rename_i k hk
    exact ⟨k, hk, by cases h; rfl⟩

/-- A running step of DEC that answers a next state ran the selected step. -/
theorem decRunStep_next {W : Nat} {s : Codec W} {t : State} (h : decRunStep s = .next t) :
    ∃ k, decSelect s.dec = some k ∧
      t = ⟨W, (s.withDec (decNext s.dec (s.ibRdata .decIbuf (decReadAddr s.dec k)) k).1).applyWrite .decObuf
        (decNext s.dec (s.ibRdata .decIbuf (decReadAddr s.dec k)) k).2⟩ := by
  unfold decRunStep at h
  split at h
  · cases h
  · rename_i k hk
    exact ⟨k, hk, by cases h; rfl⟩

theorem runStep_next {W : Nat} {s : Codec W} {b : Block} {t : State} (h : runStep b s = .next t) :
    ∃ d : Codec W, t = ⟨W, d⟩ := by
  cases b
  · obtain ⟨k, -, e⟩ := encRunStep_next h; exact ⟨_, e⟩
  · obtain ⟨k, -, e⟩ := decRunStep_next h; exact ⟨_, e⟩

/-- The operation of ENC that a command names. -/
def encOpOf : Instr → EncOp
  | .enclen _ _ => .enclen
  | .encode _ _ => .encode
  | .datalen _ _ => .enclen
  | .decode _ _ => .encode

/-- The operation of DEC that a command names. -/
def decOpOf : Instr → DecOp
  | .enclen _ _ => .datalen
  | .encode _ _ => .decode
  | .datalen _ _ => .datalen
  | .decode _ _ => .decode

/-- A command offered to a `BUSY` block changes nothing. -/
theorem exec_busy {W : Nat} {i : Instr} {s : Codec W} (h : s.busy i.block = true) : exec i ⟨W, s⟩ = .next ⟨W, s⟩ := by
  cases i <;> simp_all [Instr.block, exec, execEnclen, execEncode, execDatalen, execDecode, encOffer, decOffer]

/-- A command offered to a ready ENC is accepted. -/
theorem exec_enc {W : Nat} {i : Instr} {s : Codec W} (hb : i.block = .enc) (h : s.busy .enc = false) :
    exec i ⟨W, s⟩ =
      .next ⟨W, s.withEnc (encStart (encOpOf i) (BitVec.ofNat W i.len) (BitVec.ofNat W i.cap))⟩ := by
  cases i <;>
    simp_all [Instr.block, Instr.len, Instr.cap, encOpOf, exec, execEnclen, execEncode, encOffer]

/-- A command offered to a ready DEC is accepted. -/
theorem exec_dec {W : Nat} {i : Instr} {s : Codec W} (hb : i.block = .dec) (h : s.busy .dec = false) :
    exec i ⟨W, s⟩ =
      .next ⟨W, s.withDec (decStart (decOpOf i) (BitVec.ofNat W i.len) (BitVec.ofNat W i.cap))⟩ := by
  cases i <;>
    simp_all [Instr.block, Instr.len, Instr.cap, decOpOf, exec, execDatalen, execDecode, decOffer]

theorem exec_next {W : Nat} {i : Instr} {s : Codec W} {t : State} (h : exec i ⟨W, s⟩ = .next t) :
    ∃ d : Codec W, t = ⟨W, d⟩ := by
  cases hb : s.busy i.block
  · cases hi : i.block <;> rw [hi] at hb
    · rw [exec_enc hi hb] at h; exact ⟨_, by cases h; rfl⟩
    · rw [exec_dec hi hb] at h; exact ⟨_, by cases h; rfl⟩
  · rw [exec_busy hb] at h; exact ⟨_, by cases h; rfl⟩

theorem decodeCmd_block {W : Nat} (b : Block) (w : CmdWord W) : (decodeCmd b w).block = b := by
  cases b <;> cases h : cmdOp w <;> simp [decodeCmd, h, Instr.block]

/-- What the turn of a block can do. -/
theorem blockTurn_next {W : Nat} {b : Block} {s : Codec W} {t : State} (h : blockTurn b s = .next t) :
    (s.busy b = true ∧ runStep b s = .next t) ∨
    (s.busy b = false ∧ s.cmd b = none ∧ t = ⟨W, s⟩) ∨
    (s.busy b = false ∧ ∃ w, s.cmd b = some w ∧ exec (decodeCmd b w) ⟨W, s.setCmd b none⟩ = .next t) := by
  unfold blockTurn Codec.cmdReady at h
  cases hb : s.busy b with
  | true => exact .inl ⟨rfl, by simpa [hb] using h⟩
  | false =>
    simp only [hb, Bool.not_false, if_true, acceptTurn] at h
    cases hc : s.cmd b with
    | none => rw [hc] at h; exact .inr (.inl ⟨rfl, rfl, by cases h; rfl⟩)
    | some w => rw [hc] at h; exact .inr (.inr ⟨rfl, w, rfl, h⟩)

/-- What a move of the host can do. -/
theorem hostMove_next {W : Nat} {m : HostMove W} {s : Codec W} {t : State} (h : hostMove m s = .next t) :
    t = ⟨W, s⟩ ∨ (∃ b c, t = ⟨W, s.setCmd b c⟩) ∨ (∃ b, m = .reset b ∧ t = ⟨W, s.resetBlock b⟩) ∨
    (∃ (sp : Space) (i : Idx W) (v : Byte), s.busy sp.block = false ∧ t = ⟨W, s.writeCell sp i.toNat v⟩) := by
  cases m with
  | drive b w => exact .inr (.inl ⟨b, some w, by cases h; rfl⟩)
  | release b => exact .inr (.inl ⟨b, none, by cases h; rfl⟩)
  | reset b => exact .inr (.inr (.inl ⟨b, rfl, by cases h; rfl⟩))
  | readStatus b => exact .inl (by cases h; rfl)
  | read sp i =>
    simp only [hostMove] at h
    split at h
    · exact .inl (by cases h; rfl)
    · cases h
  | write sp i v =>
    simp only [hostMove] at h
    split at h
    · rename_i hw
      exact .inr (.inr (.inr ⟨sp, i, v, by simpa [Codec.hostMayWrite] using hw, by cases h; rfl⟩))
    · cases h
  | copy src i dst j =>
    simp only [hostMove] at h
    split at h
    · split at h
      · rename_i hw
        exact .inr (.inr (.inr ⟨dst, j, _, by simpa [Codec.hostMayWrite] using hw, by cases h; rfl⟩))
      · cases h
    · cases h

/-- Who moved in a step that answered a next state: nobody, a block, or the host at the head of the turns. -/
theorem step_next {W : Nat} {s : Codec W} {t : State} (h : step ⟨W, s⟩ = .next t) :
    ∃ ts, t = ⟨W, s.withTurns ts⟩ ∨ (∃ b, blockTurn b (s.withTurns ts) = .next t) ∨
      (∃ m, s.turns = .host m :: ts ∧ hostMove m (s.withTurns ts) = .next t) := by
  unfold step at h
  split at h
  · rename_i hts
    refine ⟨[], ?_⟩
    rw [show s.withTurns [] = s from by rw [← show s.turns = [] from hts]; rfl]
    unfold freeTurn at h
    split at h
    · exact .inr (.inl ⟨_, h⟩)
    · split at h
      · exact .inr (.inl ⟨_, h⟩)
      · exact .inl (by cases h; rfl)
  · rename_i u ts hts
    cases u with
    | block b => exact ⟨ts, .inr (.inl ⟨b, h⟩)⟩
    | host m => exact ⟨ts, .inr (.inr ⟨m, hts, h⟩)⟩
    | wait b =>
      unfold takeTurn at h
      simp only at h
      split at h
      · exact ⟨s.turns, .inr (.inl ⟨b, h⟩)⟩
      · exact ⟨ts, .inl (by cases h; rfl)⟩

theorem blockTurn_width {W : Nat} {b : Block} {s : Codec W} {t : State} (h : blockTurn b s = .next t) :
    ∃ d : Codec W, t = ⟨W, d⟩ := by
  obtain ⟨-, h⟩ | ⟨-, -, h⟩ | ⟨-, w, -, h⟩ := blockTurn_next h
  exacts [runStep_next h, ⟨_, h⟩, exec_next h]

/-- No step changes the width. -/
theorem step_width {W : Nat} {s : Codec W} {t : State} (h : step ⟨W, s⟩ = .next t) : ∃ d : Codec W, t = ⟨W, d⟩ := by
  obtain ⟨ts, h | ⟨b, h⟩ | ⟨m, -, h⟩⟩ := step_next h
  · exact ⟨_, h⟩
  · exact blockTurn_width h
  · obtain h | ⟨b, c, h⟩ | ⟨b, -, h⟩ | ⟨sp, i, v, -, h⟩ := hostMove_next h <;> exact ⟨_, h⟩

/-- A step in which a block has the turn. -/
theorem step_block {W : Nat} {s : Codec W} {b : Block} {ts : List (Turn W)} (h : s.turns = .block b :: ts) :
    step ⟨W, s⟩ = blockTurn b (s.withTurns ts) := by
  simp [step, h, takeTurn]

/-- The turn of a `BUSY` block is its running step. -/
theorem blockTurn_busy {W : Nat} {b : Block} {s : Codec W} (h : s.busy b = true) : blockTurn b s = runStep b s := by
  simp [blockTurn, Codec.cmdReady, h]

/-- The turn of a ready block runs the command on its port. -/
theorem blockTurn_ready {W : Nat} {b : Block} {s : Codec W} {w : CmdWord W} (h : s.busy b = false)
    (hc : s.cmd b = some w) : blockTurn b s = exec (decodeCmd b w) ⟨W, s.setCmd b none⟩ := by
  simp [blockTurn, Codec.cmdReady, h, acceptTurn, hc]

/-- The turn of a ready block with nothing on its port does nothing. -/
theorem blockTurn_idle {W : Nat} {b : Block} {s : Codec W} (h : s.busy b = false) (hc : s.cmd b = none) :
    blockTurn b s = .next ⟨W, s⟩ := by
  simp [blockTurn, Codec.cmdReady, h, acceptTurn, hc]

end Sys2Proof.Machine
end

