-- ==== Sys2Proof/Laws/Decoder.lean ====
section
/-! SUPPORT. What one step of DEC does to its registers, its output and its invariant, said once. -/

namespace Sys2Proof.Machine

/-- When each step of DEC is the selected one (R128). -/
theorem decSelect_cases {W : Nat} {r : DecRegs W} {k : DecStep} (h : decSelect r = some k) :
    match k with
    | .scan => r.phase = .scan ∧ r.inIdx.toNat < r.len.toNat
    | .scanEnd => r.phase = .scan ∧ r.inIdx = r.len
    | .run => r.phase = .run ∧ r.inIdx.toNat < r.len.toNat
    | .runEnd => r.phase = .run ∧ r.inIdx = r.len := by
  unfold decSelect at h
  split at h
  · cases hp : r.phase <;> simp [hp] at h <;> subst h <;> exact ⟨rfl, by assumption⟩
  · split at h
    · cases hp : r.phase <;> simp [hp] at h <;> subst h <;> exact ⟨rfl, by assumption⟩
    · cases h

/-- The converse: the step whose row of R128 holds is the selected one. -/
theorem decSelect_of {W : Nat} {r : DecRegs W} {k : DecStep}
    (h : match k with
      | .scan => r.phase = .scan ∧ r.inIdx.toNat < r.len.toNat
      | .scanEnd => r.phase = .scan ∧ r.inIdx = r.len
      | .run => r.phase = .run ∧ r.inIdx.toNat < r.len.toNat
      | .runEnd => r.phase = .run ∧ r.inIdx = r.len) :
    decSelect r = some k := by
  cases k <;> obtain ⟨h1, h2⟩ := h <;> simp [decSelect, h1, h2]

theorem decSelect_isSome {W : Nat} {r : DecRegs W} (h : r.inIdx.toNat ≤ r.len.toNat) : ∃ k, decSelect r = some k := by
  unfold decSelect
  split
  · cases r.phase <;> exact ⟨_, rfl⟩
  · rw [if_pos (BitVec.eq_of_toNat_eq (by omega))]
    cases r.phase <;> exact ⟨_, rfl⟩

/-- The registers of DEC after a command is accepted have the invariant, over any buffers. -/
theorem decStart_inv {W : Nat} (op : DecOp) (len cap : Idx W) (input : List Byte) (out : Nat → Byte) :
    (decStart op len cap).Inv input out :=
  ⟨⟨by simp [decStart, started], by simp [decStart, started]⟩, by simp [decStart, started], by simp [decStart],
    by simp [decStart], by simp [decStart], by simp [decStart], by simp [decStart], by simp [decStart, dataLen],
    by simp [decStart, started], fun _ _ => ⟨by simp [decStart], by simp [decStart, allValid], by simp [decStart]⟩,
    by simp [decStart]⟩

/-- The invariant of DEC outside `BUSY` does not speak of the buffers. -/
theorem DecRegs.Inv.of_idle {W : Nat} {r : DecRegs W} {i i' : List Byte} {o o' : Nat → Byte} (h : r.Inv i o)
    (hb : r.status.state ≠ .busy) : r.Inv i' o' :=
  ⟨h.1, h.2, h.3, h.4, h.5, h.6, h.7, h.8, h.9, fun h' => absurd h' hb, fun h' => absurd h' hb⟩

/-- A raise ends the operation and keeps the invariant; the codes of DEC are the two it can produce (R134). -/
theorem DecRegs.Inv.raised {W : Nat} {r : DecRegs W} {i : List Byte} {o : Nat → Byte} (h : r.Inv i o) {e : Exn}
    (he : e ≠ .boundsFault) : ({ r with status := raise e } : DecRegs W).Inv i o :=
  ⟨⟨by cases e <;> simp [raise, Exn.code], by simp [raise]⟩, by cases e <;> simp_all [raise, Exn.code], h.3, h.4, h.5, h.6,
    h.7, h.8, by simp [raise], by simp [raise], by simp [raise]⟩

/-- The steps DEC still has to make on a text without `INVALID` code units and with room for the output (R126). -/
def decRemaining {W : Nat} (r : DecRegs W) : Nat :=
  (r.len.toNat - r.inIdx.toNat) + 1 +
    match r.phase with
    | .scan =>
      match r.op with
      | .datalen => 0
      | .decode => r.len.toNat + 1
    | .run => 0

/-- SCAN keeps the invariant; it counts a symbol, passes a `=`, or raises (R113). -/
theorem decScan_inv {W : Nat} {r : DecRegs W} {input : List Byte} {out : Nat → Byte} {c : Byte} (hinv : r.Inv input out)
    (hlen : input.length = r.len.toNat) (hb : r.status.state = .busy) (hp : r.phase = .scan)
    (hi : r.inIdx.toNat < r.len.toNat) (hc : c = input.getD r.inIdx.toNat 0) :
    (decScan r c).Inv input out ∧ (decScan r c).len = r.len ∧ (decScan r c).cap = r.cap ∧ (decScan r c).op = r.op ∧
      ((classify c = .invalid ∧ decScan r c = { r with status := raise .invalidCharacter }) ∨
        (classify c ≠ .invalid ∧ (decScan r c).status = r.status ∧ (decScan r c).phase = .scan ∧
          (decScan r c).inIdx.toNat = r.inIdx.toNat + 1 ∧ decRemaining (decScan r c) + 1 = decRemaining r)) := by
  obtain ⟨hcount, hvalid, hfresh⟩ := hinv.scanning hb hp
  have e1 : (r.inIdx + 1).toNat = r.inIdx.toNat + 1 := toNat_succ_of_lt hi
  cases hcl : classify c with
  | invalid =>
    have he : decScan r c = { r with status := raise .invalidCharacter } := by simp [decScan, hcl]
    rw [he]
    exact ⟨hinv.raised (by decide), rfl, rfl, rfl, .inl ⟨rfl, rfl⟩⟩
  | pad =>
    have he : decScan r c = { r with inIdx := r.inIdx + 1 } := by simp [decScan, hcl]
    rw [he]
    refine ⟨⟨hinv.status, hinv.err_legal, hinv.k_le, hinv.bitsrem_range, hinv.acc_lt, by simp only [e1]; omega,
      hinv.outIdx_le, hinv.req_le, hinv.result_done, fun _ _ => ⟨?_, ?_, hfresh⟩, fun _ hp' => by simp [hp] at hp'⟩,
      rfl, rfl, rfl, .inr ⟨by simp, rfl, hp, e1, ?_⟩⟩
    · simp only [e1]
      rw [symCount_take _ (by omega), ← hc, symCount_pad hcl, hcount]
      rfl
    · simp only [e1]
      exact allValid_take _ (by omega) hvalid (by rw [← hc, hcl]; simp)
    · simp only [decRemaining, e1]
      omega
  | sym v =>
    have he : decScan r c = { r with k := r.k + 1, inIdx := r.inIdx + 1 } := by simp [decScan, hcl]
    rw [he]
    have hkl : r.k.toNat < r.len.toNat := by
      have h1 := (symValues_getD input (i := r.inIdx.toNat) (by omega) (by rw [← hc, hcl])).2
      have h2 := symCount_le input
      omega
    have ek : (r.k + 1).toNat = r.k.toNat + 1 := toNat_succ_of_lt hkl
    refine ⟨⟨hinv.status, hinv.err_legal, by simp only [ek]; omega, hinv.bitsrem_range, hinv.acc_lt,
      by simp only [e1]; omega, hinv.outIdx_le, by simp only [ek]; exact hinv.req_le.trans (dataLen_mono (by omega)),
      hinv.result_done, fun _ _ => ⟨?_, ?_, hfresh⟩, fun _ hp' => by simp [hp] at hp'⟩, rfl, rfl, rfl,
      .inr ⟨by simp, rfl, hp, e1, ?_⟩⟩
    · simp only [e1, ek]
      rw [symCount_take _ (by omega), ← hc, symCount_sym hcl, hcount]
    · simp only [e1]
      exact allValid_take _ (by omega) hvalid (by rw [← hc, hcl]; simp)
    · simp only [decRemaining, e1]
      omega

/-- SCAN_END keeps the invariant; DATALEN is done, DECODE raises or goes on to the RUN pass (R114). -/
theorem decScanEnd_inv {W : Nat} {r : DecRegs W} {input : List Byte} {out : Nat → Byte} (hinv : r.Inv input out)
    (hlen : input.length = r.len.toNat) (hb : r.status.state = .busy) (hp : r.phase = .scan) (hi : r.inIdx = r.len) :
    (decScanEnd r).Inv input out ∧ (decScanEnd r).len = r.len ∧ (decScanEnd r).cap = r.cap ∧ (decScanEnd r).op = r.op ∧
      allValid input ∧ (decScanEnd r).req.toNat = dataLenOf input ∧
      ((r.op = .datalen ∧ (decScanEnd r).status = ⟨.done, .noError, (decScanEnd r).req⟩) ∨
        (r.op = .decode ∧ r.cap.toNat < dataLenOf input ∧
          (decScanEnd r).status = ⟨.error, .insufficientOutputCapacity, 0⟩) ∨
        (r.op = .decode ∧ dataLenOf input ≤ r.cap.toNat ∧ (decScanEnd r).status = r.status ∧
          (decScanEnd r).phase = .run ∧ decRemaining (decScanEnd r) + 1 = decRemaining r)) := by
  obtain ⟨hcount, hvalid, hf1, hf2, hf3, hf4⟩ := hinv.scanning hb hp
  rw [show input.take r.inIdx.toNat = input by rw [hi, ← hlen, List.take_length]] at hcount hvalid
  have hdl : dataLen r.k.toNat = dataLenOf input := by rw [hcount]; rfl
  have hq := dataLen_toNat r.k
  have hil := hinv.inIdx_le
  cases ho : r.op with
  | datalen =>
    have he : decScanEnd r =
        { r with req := BitVec.ofNat (W + 1) (dataLen r.k.toNat), status := finish (dataLen r.k.toNat) } := by
      simp [decScanEnd, ho]
    rw [he]
    refine ⟨⟨⟨by simp [finish], by simp [finish]⟩, by simp [finish], hinv.k_le, hinv.bitsrem_range, hinv.acc_lt, hil,
      by rw [hf3]; simp, hq.le, fun _ => rfl, by simp [finish], by simp [finish]⟩, rfl, rfl, ho, hvalid, hq.trans hdl,
      .inl ⟨rfl, rfl⟩⟩
  | decode =>
    by_cases hcap : r.cap.toNat < dataLen r.k.toNat
    · have he : decScanEnd r =
          { r with req := BitVec.ofNat (W + 1) (dataLen r.k.toNat), status := raise .insufficientOutputCapacity } := by
        simp [decScanEnd, ho, hcap]
      rw [he]
      refine ⟨⟨⟨by simp [raise, Exn.code], by simp [raise]⟩, by simp [raise, Exn.code], hinv.k_le, hinv.bitsrem_range,
        hinv.acc_lt, hil, by rw [hf3]; simp, hq.le, by simp [raise], by simp [raise], by simp [raise]⟩, rfl, rfl, ho, hvalid,
        hq.trans hdl, .inr (.inl ⟨rfl, by omega, rfl⟩)⟩
    · have he : decScanEnd r =
          { r with
            req := BitVec.ofNat (W + 1) (dataLen r.k.toNat), phase := .run, acc := 0, bitsrem := 8, inIdx := 0,
            outIdx := 0 } := by
        simp [decScanEnd, ho, hcap]
      rw [he]
      refine ⟨⟨hinv.status, hinv.err_legal, hinv.k_le, by simp, by simp, by simp, by simp, hq.le, by simp [hb], by simp,
        fun _ _ => ⟨ho, hvalid, hcount, hq, by rw [hq]; exact Nat.not_lt.1 hcap, by simp, by simp [bitsVal],
          by simp⟩⟩, rfl, rfl, ho, hvalid, hq.trans hdl, .inr (.inr ⟨rfl, by omega, rfl, rfl, ?_⟩)⟩
      simp only [decRemaining, hp, ho, hi]
      simp
      omega

/-- RUN keeps the invariant, does not raise, and writes only below `REQ` (R115 to R118, R121). -/
theorem decRun_inv {W : Nat} {r : DecRegs W} {input : List Byte} {out : Nat → Byte} {c : Byte} (hinv : r.Inv input out)
    (hlen : input.length = r.len.toNat) (hb : r.status.state = .busy) (hp : r.phase = .run)
    (hi : r.inIdx.toNat < r.len.toNat) (hc : c = input.getD r.inIdx.toNat 0) :
    (decRun r c).1.Inv input (patched out (decRun r c).2) ∧ (decRun r c).1.len = r.len ∧ (decRun r c).1.cap = r.cap ∧
      (decRun r c).1.op = r.op ∧ (decRun r c).1.req = r.req ∧ (decRun r c).1.status = r.status ∧
      (decRun r c).1.phase = .run ∧ decRemaining (decRun r c).1 + 1 = decRemaining r ∧
      (∀ w, (decRun r c).2 = some w → w.addr.toNat < r.req.toNat) := by
  have hrun := hinv.running hb hp
  have e1 : (r.inIdx + 1).toNat = r.inIdx.toNat + 1 := toNat_succ_of_lt hi
  have hne : classify c ≠ .invalid := by
    rw [hc]
    apply hrun.valid
    rw [List.getD_eq_getElem _ _ (by omega)]
    exact List.getElem_mem _
  have hbal := hrun.balance
  have hbr := hinv.bitsrem_range
  cases hcl : classify c with
  | invalid => exact absurd hcl hne
  | pad =>
    have he : decRun r c = ({ r with inIdx := r.inIdx + 1 }, none) := by simp [decRun, hcl]
    rw [he]
    refine ⟨⟨hinv.status, hinv.err_legal, hinv.k_le, hbr, hinv.acc_lt, by simp only [e1]; omega, hinv.outIdx_le,
      hinv.req_le, hinv.result_done, fun _ hp' => by simp [hp] at hp', fun _ _ => ⟨hrun.op_decode, hrun.valid, hrun.count,
      hrun.req_eq, hrun.fits, ?_, hrun.pending, hrun.written⟩⟩, rfl, rfl, rfl, rfl, rfl, hp, ?_, by simp⟩
    · simp only [e1]
      rw [symCount_take _ (by omega), ← hc, symCount_pad hcl]
      exact hbal
    · simp only [decRemaining, e1]
      omega
  | sym v =>
    obtain ⟨hv, hvlt⟩ := symValues_getD input (i := r.inIdx.toNat) (by omega) (by rw [← hc, hcl])
    have hcnt : symCount (input.take (r.inIdx.toNat + 1)) = symCount (input.take r.inIdx.toNat) + 1 := by
      rw [symCount_take _ (by omega), ← hc, symCount_sym hcl]
    have hpend := hrun.pending
    have hacc := hinv.acc_lt
    have hvlt5 := v.isLt
    set j := symCount (input.take r.inIdx.toNat) with hj
    have ha : (decPushSymbol r.acc v).toNat =
        bitsVal (symBit (symValues input)) (8 * r.outIdx.toNat) (8 - r.bitsrem.toNat + 5) := by
      rw [decPushSymbol_toNat, bitsVal_add, ← hpend, ← hbal, symBit_sym, hv]
      have : 2 ^ (8 - r.bitsrem.toNat) ≤ 2 ^ 7 := pow_le_pow_right₀ (by omega) (by omega)
      norm_num
      omega
    by_cases ht : 0 < decT r.bitsrem
    · have h5 : 5 < r.bitsrem.toNat := by unfold decT at ht; omega
      have e2 : (BitVec.ofNat 4 (decT r.bitsrem).toNat).toNat = r.bitsrem.toNat - 5 := by simp [decT]; omega
      have he : decRun r c =
          ({ r with
              acc := decPushSymbol r.acc v, bitsrem := BitVec.ofNat 4 (decT r.bitsrem).toNat, inIdx := r.inIdx + 1 },
            none) := by
        simp [decRun, hcl, decRunSym, ht]
      rw [he]
      have hwid : 8 - r.bitsrem.toNat + 5 = 8 - (r.bitsrem.toNat - 5) := by omega
      rw [hwid] at ha
      refine ⟨⟨hinv.status, hinv.err_legal, hinv.k_le, by rw [e2]; omega, by rw [e2, ha]; exact bitsVal_lt _ _ _,
        by simp only [e1]; omega, hinv.outIdx_le, hinv.req_le, hinv.result_done, fun _ hp' => by simp [hp] at hp',
        fun _ _ => ⟨hrun.op_decode, hrun.valid, hrun.count, hrun.req_eq, hrun.fits, ?_, by simp only [e2]; exact ha,
          hrun.written⟩⟩, rfl, rfl, rfl, rfl, rfl, hp, ?_, by simp⟩
      · simp only [e1, e2]
        rw [hcnt]
        omega
      · simp only [decRemaining, e1]
        omega
    · have h5 : r.bitsrem.toNat ≤ 5 := by unfold decT at ht; omega
      have hreq := hrun.req_eq
      have hfits := hrun.fits
      have hroom : r.outIdx.toNat + 1 ≤ r.req.toNat := by
        rw [hreq, hrun.count, dataLen]
        omega
      have hcapn : ¬ r.cap.toNat ≤ r.outIdx.toNat := by omega
      have e2 : (BitVec.ofNat 4 (decT r.bitsrem + 8).toNat).toNat = r.bitsrem.toNat + 3 := by simp [decT]; omega
      have e3 : (-decT r.bitsrem).toNat = 5 - r.bitsrem.toNat := by unfold decT; omega
      have e4 : (r.outIdx + 1).toNat = r.outIdx.toNat + 1 := toNat_succ_of_lt (b := r.cap) (by omega)
      have he : decRun r c =
          ({ r with
              outIdx := r.outIdx + 1, acc := decLowBits (decPushSymbol r.acc v) (decT r.bitsrem),
              bitsrem := BitVec.ofNat 4 (decT r.bitsrem + 8).toNat, inIdx := r.inIdx + 1 },
            some ⟨r.outIdx, decTopByte (decPushSymbol r.acc v) (decT r.bitsrem)⟩) := by
        simp only [decRun, hcl, decRunSym, ht, if_false, hcapn]
      rw [he]
      have hwid : 8 - r.bitsrem.toNat + 5 = 8 + (5 - r.bitsrem.toNat) := by omega
      rw [hwid, bitsVal_add] at ha
      have hl := bitsVal_lt (symBit (symValues input)) (8 * r.outIdx.toNat + 8) (5 - r.bitsrem.toNat)
      have elow : (decLowBits (decPushSymbol r.acc v) (decT r.bitsrem)).toNat =
          bitsVal (symBit (symValues input)) (8 * (r.outIdx.toNat + 1)) (5 - r.bitsrem.toNat) := by
        rw [decLowBits_toNat _ _ (by unfold decT; omega), e3, ha, Nat.mul_comm, Nat.mul_add_mod, Nat.mod_eq_of_lt hl]
        congr 1
      have etop : decTopByte (decPushSymbol r.acc v) (decT r.bitsrem) = streamByte (symValues input) r.outIdx.toNat := by
        apply BitVec.eq_of_toNat_eq
        simp only [decTopByte, streamByte, BitVec.toNat_setWidth, BitVec.toNat_ushiftRight, Nat.shiftRight_eq_div_pow,
          BitVec.toNat_ofNat]
        rw [e3, ha, Nat.mul_comm, Nat.mul_add_div (by positivity), Nat.div_eq_of_lt hl, Nat.add_zero]
      have e5 : 8 - (r.bitsrem.toNat + 3) = 5 - r.bitsrem.toNat := by omega
      refine ⟨⟨hinv.status, hinv.err_legal, hinv.k_le, by rw [e2]; omega,
        by rw [e2, elow, e5]; exact bitsVal_lt _ _ _, by simp only [e1]; omega, by rw [e4]; exact hroom, hinv.req_le,
        hinv.result_done, fun _ hp' => by simp [hp] at hp', fun _ _ => ⟨hrun.op_decode, hrun.valid, hrun.count, hrun.req_eq,
        hrun.fits, ?_, by simp only [e2, e4, e5]; exact elow, fun m hm => ?_⟩⟩, rfl, rfl, rfl, rfl, rfl, hp, ?_, ?_⟩
      · simp only [e1, e2, e4]
        rw [hcnt]
        omega
      · simp only [e4] at hm
        show (if m = r.outIdx.toNat then _ else out m) = _
        by_cases hmo : m = r.outIdx.toNat
        · rw [if_pos hmo, etop, hmo]
        · rw [if_neg hmo]
          exact hrun.written m (by omega)
      · simp only [decRemaining, e1]
        omega
      · intro w hw
        cases hw
        exact hroom

/-- RUN_END keeps the invariant and is the last step; `RESULT` is the data length (R120). -/
theorem decRunEnd_inv {W : Nat} {r : DecRegs W} {input : List Byte} {out : Nat → Byte} (hinv : r.Inv input out)
    (hlen : input.length = r.len.toNat) (hb : r.status.state = .busy) (hp : r.phase = .run) (hi : r.inIdx = r.len) :
    (decRunEnd r).Inv input out ∧ decRemaining r = 1 ∧ (decRunEnd r).status = ⟨.done, .noError, r.req⟩ ∧
      r.outIdx.toNat = r.req.toNat ∧ r.req.toNat = dataLenOf input := by
  have hrun := hinv.running hb hp
  have hbr := hinv.bitsrem_range
  have hbal := hrun.balance
  rw [show input.take r.inIdx.toNat = input by rw [hi, ← hlen, List.take_length]] at hbal
  have ho : r.outIdx.toNat = dataLenOf input := by rw [dataLenOf, dataLen]; omega
  have hr : r.req.toNat = dataLenOf input := by rw [hrun.req_eq, hrun.count]; rfl
  have hres : BitVec.ofNat (W + 1) r.outIdx.toNat = r.req := BitVec.eq_of_toNat_eq (by rw [count_toNat, ho, hr])
  have hi2 : r.inIdx.toNat = r.len.toNat := by rw [hi]
  exact ⟨⟨⟨by simp [decRunEnd, finish], by simp [decRunEnd, finish]⟩, by simp [decRunEnd, finish], hinv.k_le, hbr,
    hinv.acc_lt, hinv.inIdx_le, hinv.outIdx_le, hinv.req_le, fun _ => hres, by simp [decRunEnd, finish],
    by simp [decRunEnd, finish]⟩, by simp only [decRemaining, hp]; omega, by simp [decRunEnd, finish, hres], by omega, hr⟩

end Sys2Proof.Machine
end

