-- ==== Sys2Proof/Laws/Encoder.lean ====
section
/-! SUPPORT. What one step of ENC does to its registers, its output and its invariant, said once. -/

namespace Sys2Proof.Machine

/-- When each step of ENC is the selected one (R93). -/
theorem encSelect_cases {W : Nat} {r : EncRegs W} {k : EncStep} (h : encSelect r = some k) :
    match k with
    | .emit => 5 ≤ r.held.toNat
    | .load => r.held.toNat ≤ 4 ∧ r.inIdx.toNat < r.len.toNat
    | .flush => 1 ≤ r.held.toNat ∧ r.held.toNat ≤ 4 ∧ r.inIdx = r.len
    | .finish => r.held = 0 ∧ r.inIdx = r.len := by
  unfold encSelect at h
  split at h
  · cases h; assumption
  · split at h
    · cases h; constructor <;> omega
    · split at h
      · split at h
        · cases h; constructor <;> assumption
        · rename_i hne
          cases h
          have : r.held.toNat ≠ 0 := fun e => hne (BitVec.eq_of_toNat_eq (by simpa using e))
          exact ⟨by omega, by omega, by assumption⟩
      · cases h

theorem encSelect_isSome {W : Nat} {r : EncRegs W} (h : r.inIdx.toNat ≤ r.len.toNat) : ∃ k, encSelect r = some k := by
  unfold encSelect
  split
  · exact ⟨_, rfl⟩
  · split
    · exact ⟨_, rfl⟩
    · rw [if_pos (BitVec.eq_of_toNat_eq (by omega))]
      split <;> exact ⟨_, rfl⟩

/-- The registers of ENC after a command is accepted have the invariant, over any buffers. -/
theorem encStart_inv {W : Nat} (op : EncOp) (len cap : Idx W) (input : List Byte) (out : Nat → Byte) :
    (encStart op len cap).Inv input out := by
  have hq : (encStart op len cap).req.toNat = enclen len.toNat := enclen_toNat len
  cases op with
  | enclen =>
    exact ⟨⟨by simp [encStart, finish], by simp [encStart, finish]⟩, .inl rfl, hq, by simp [encStart], by simp [encStart],
      by simp [encStart], fun _ => rfl, by simp [encStart, finish]⟩
  | encode =>
    by_cases h : cap.toNat < enclen len.toNat
    · exact ⟨⟨by simp [encStart, h, raise, Exn.code], by simp [encStart, h, raise]⟩,
        .inr (by simp [encStart, h, raise, Exn.code]), hq, by simp [encStart], by simp [encStart], by simp [encStart],
        by simp [encStart, h, raise], by simp [encStart, h, raise]⟩
    · exact ⟨⟨by simp [encStart, h, started], by simp [encStart, h, started]⟩, .inl (by simp [encStart, h, started]), hq,
        by simp [encStart], by simp [encStart], by simp [encStart], by simp [encStart, h, started], fun _ =>
        ⟨rfl, by rw [hq]; exact Nat.not_lt.1 h, .inl ⟨by simp [encStart], by simp [encStart, bitsVal]⟩,
          by simp [encStart]⟩⟩

/-- The invariant of ENC outside `BUSY` does not speak of the buffers. -/
theorem EncRegs.Inv.of_idle {W : Nat} {r : EncRegs W} {i i' : List Byte} {o o' : Nat → Byte} (h : r.Inv i o)
    (hb : r.status.state ≠ .busy) : r.Inv i' o' :=
  ⟨h.1, h.2, h.3, h.4, h.5, h.6, h.7, fun h' => absurd h' hb⟩

/-- The steps ENC still has to make (R104). -/
def encRemaining {W : Nat} (r : EncRegs W) : Nat :=
  (r.len.toNat - r.inIdx.toNat) + (r.req.toNat - r.outIdx.toNat) + 1

/-- A step of a `BUSY` ENC keeps the invariant and the command; it is one of the remaining steps, and only the last one, FINISH,
changes the status. -/
theorem encNext_inv {W : Nat} {r : EncRegs W} {input : List Byte} {out : Nat → Byte} {k : EncStep} {rdata : Byte}
    (hinv : r.Inv input out) (hlen : input.length = r.len.toNat) (hb : r.status.state = .busy) (hk : encSelect r = some k)
    (hrd : r.inIdx.toNat < r.len.toNat → k = .load → rdata = input.getD r.inIdx.toNat 0) :
    (encNext r rdata k).Inv input (patched out (encWrite r k)) ∧ (encNext r rdata k).len = r.len ∧
      (encNext r rdata k).cap = r.cap ∧ (encNext r rdata k).req = r.req ∧
      (∀ w, encWrite r k = some w → w.addr.toNat < r.req.toNat) ∧
      ((k ≠ .finish ∧ (encNext r rdata k).status = r.status ∧ encRemaining (encNext r rdata k) + 1 = encRemaining r) ∨
        (k = .finish ∧ encRemaining r = 1 ∧ (encNext r rdata k).status = ⟨.done, .noError, r.req⟩ ∧
          r.outIdx.toNat = r.req.toNat)) := by
  have hrun := hinv.running hb
  have hsel := encSelect_cases hk
  have hreq := hinv.req_eq
  rw [enclen_eq] at hreq
  have hfit := hrun.fits
  have hcap := r.cap.isLt
  have hol := hinv.outIdx_le
  have hil := hinv.inIdx_le
  cases k with
  | load =>
    obtain ⟨h1, h2⟩ := hsel
    have e1 : (encNext r rdata .load).inIdx.toNat = r.inIdx.toNat + 1 := toNat_succ_of_lt h2
    have e2 : (encNext r rdata .load).held.toNat = r.held.toNat + 8 := by simp [encNext, encLoad]; omega
    have e3 : (encNext r rdata .load).acc.toNat = r.acc.toNat % 16 * 256 + rdata.toNat := encPushByte_toNat _ _
    obtain ⟨hbal, hacc⟩ | ⟨hx, -⟩ := hrun.balance
    · refine ⟨⟨hinv.status, hinv.err_legal, hinv.req_eq, by omega, by rw [e1]; exact h2, hol, hinv.result_done,
        fun _ => ⟨hrun.op_encode, hfit, .inl ⟨?_, ?_⟩, hrun.written⟩⟩, rfl, rfl, rfl, by simp [encWrite],
        .inl ⟨by simp, rfl, ?_⟩⟩
      · rw [e1, e2]
        show 8 * _ = 5 * r.outIdx.toNat + _
        omega
      · rw [e2, e3]
        show _ = bitsVal _ (5 * r.outIdx.toNat) _
        rw [bitsVal_add, ← hacc, ← hbal, byteBit_byte, ← hrd h2 rfl]
        have := rdata.isLt
        have hh : r.held.toNat = 0 ∨ r.held.toNat = 1 ∨ r.held.toNat = 2 ∨ r.held.toNat = 3 ∨ r.held.toNat = 4 := by
          omega
        rcases hh with h | h | h | h | h <;> rw [h] <;> norm_num <;> omega
      · simp only [encRemaining, e1]
        show (r.len.toNat - _) + (r.req.toNat - r.outIdx.toNat) + 1 + 1 = _
        omega
    · rw [hx] at h2
      omega
  | emit =>
    have h5 : 5 ≤ r.held.toNat := hsel
    have h12 := hinv.held_le
    obtain ⟨hbal, hacc⟩ | ⟨-, hx, -⟩ := hrun.balance
    · have ho : r.outIdx.toNat + 1 ≤ r.req.toNat := by omega
      have e1 : (encNext r rdata .emit).outIdx.toNat = r.outIdx.toNat + 1 := toNat_succ_of_lt (b := r.cap) (by omega)
      have e2 : (encNext r rdata .emit).held.toNat = r.held.toNat - 5 := by simp [encNext, encEmit]; omega
      have hsplit : bitsVal (byteBit input) (5 * r.outIdx.toNat) r.held.toNat =
          bitsVal (byteBit input) (5 * r.outIdx.toNat) 5 * 2 ^ (r.held.toNat - 5) +
            bitsVal (byteBit input) (5 * r.outIdx.toNat + 5) (r.held.toNat - 5) := by
        rw [← bitsVal_add]
        congr 1
        omega
      have hlt := bitsVal_lt (byteBit input) (5 * r.outIdx.toNat + 5) (r.held.toNat - 5)
      have hlt5 := bitsVal_lt (byteBit input) (5 * r.outIdx.toNat) 5
      have hv : encTopSymbol r.acc r.held.toNat = streamSymbol input r.outIdx.toNat := by
        apply BitVec.eq_of_toNat_eq
        simp only [encTopSymbol, streamSymbol, BitVec.toNat_setWidth, BitVec.toNat_ushiftRight, Nat.shiftRight_eq_div_pow,
          BitVec.toNat_ofNat]
        rw [Nat.mod_eq_of_lt (a := bitsVal _ _ _) hlt5]
        have : r.acc.toNat / 2 ^ (r.held.toNat - 5) % 2 ^ 5 =
            (r.acc.toNat % 2 ^ r.held.toNat) / 2 ^ (r.held.toNat - 5) := by
          rw [show (2 : Nat) ^ r.held.toNat = 2 ^ (r.held.toNat - 5) * 2 ^ 5 by rw [← pow_add]; congr 1; omega,
            Nat.mod_mul_right_div_self]
        rw [this, hacc, hsplit, Nat.mul_comm, Nat.mul_add_div (by positivity), Nat.div_eq_of_lt hlt, Nat.add_zero]
      refine ⟨⟨hinv.status, hinv.err_legal, hinv.req_eq, by omega, hil, by rw [e1]; exact ho, hinv.result_done,
        fun _ => ⟨hrun.op_encode, hfit, .inl ⟨?_, ?_⟩, ?_⟩⟩, rfl, rfl, rfl, ?_, .inl ⟨by simp, rfl, ?_⟩⟩
      · rw [e1, e2]
        show 8 * r.inIdx.toNat = _
        omega
      · rw [e1, e2]
        show r.acc.toNat % _ = _
        have : r.acc.toNat % 2 ^ (r.held.toNat - 5) = (r.acc.toNat % 2 ^ r.held.toNat) % 2 ^ (r.held.toNat - 5) := by
          rw [Nat.mod_mod_of_dvd _ (pow_dvd_pow 2 (by omega))]
        rw [this, hacc, hsplit, Nat.mul_comm, Nat.mul_add_mod, Nat.mod_eq_of_lt hlt]
        congr 1
      · intro j hj
        rw [e1] at hj
        show (if j = r.outIdx.toNat then _ else out j) = _
        by_cases hjo : j = r.outIdx.toNat
        · rw [if_pos hjo, hv, hjo]
        · rw [if_neg hjo]
          exact hrun.written j (by omega)
      · intro w hw
        cases hw
        exact ho
      · simp only [encRemaining, e1]
        show (r.len.toNat - r.inIdx.toNat) + (r.req.toNat - _) + 1 + 1 = _
        omega
    · rw [hx] at h5
      simp at h5
  | flush =>
    obtain ⟨h1, h4, hie⟩ := hsel
    obtain ⟨hbal, hacc⟩ | ⟨-, hx, -⟩ := hrun.balance
    · have hi2 : r.inIdx.toNat = r.len.toNat := by rw [hie]
      have ho : r.outIdx.toNat + 1 = r.req.toNat := by omega
      have e1 : (encNext r rdata .flush).outIdx.toNat = r.outIdx.toNat + 1 := toNat_succ_of_lt (b := r.cap) (by omega)
      have hv : encLastSymbol r.acc r.held.toNat = streamSymbol input r.outIdx.toNat := by
        apply BitVec.eq_of_toNat_eq
        simp only [encLastSymbol, streamSymbol, BitVec.toNat_setWidth, BitVec.toNat_shiftLeft, BitVec.toNat_ofNat,
          Nat.shiftLeft_eq]
        have hs : bitsVal (byteBit input) (5 * r.outIdx.toNat) 5 =
            r.acc.toNat % 2 ^ r.held.toNat * 2 ^ (5 - r.held.toNat) := by
          rw [hacc, show (5 : Nat) = r.held.toNat + (5 - r.held.toNat) by omega, bitsVal_add]
          rw [show r.held.toNat + (5 - r.held.toNat) = 5 by omega, ← hbal, hi2, ← hlen, byteBit_end]
          rfl
        rw [hs]
        have hh : r.held.toNat = 1 ∨ r.held.toNat = 2 ∨ r.held.toNat = 3 ∨ r.held.toNat = 4 := by omega
        rcases hh with h | h | h | h <;> rw [h] <;> norm_num <;> omega
      refine ⟨⟨hinv.status, hinv.err_legal, hinv.req_eq, by simp [encNext, encFlush], hil, by rw [e1]; exact ho.le,
        hinv.result_done, fun _ => ⟨hrun.op_encode, hfit, .inr ⟨hie, rfl, by rw [e1]; exact ho⟩, ?_⟩⟩, rfl, rfl, rfl, ?_,
        .inl ⟨by simp, rfl, ?_⟩⟩
      · intro j hj
        rw [e1] at hj
        show (if j = r.outIdx.toNat then _ else out j) = _
        by_cases hjo : j = r.outIdx.toNat
        · rw [if_pos hjo, hv, hjo]
        · rw [if_neg hjo]
          exact hrun.written j (by omega)
      · intro w hw
        cases hw
        exact ho.le
      · simp only [encRemaining, e1]
        show (r.len.toNat - r.inIdx.toNat) + (r.req.toNat - _) + 1 + 1 = _
        omega
    · rw [hx] at h1
      simp at h1
  | finish =>
    obtain ⟨hh, hie⟩ := hsel
    have hi2 : r.inIdx.toNat = r.len.toNat := by rw [hie]
    have ho : r.outIdx.toNat = r.req.toNat := by
      obtain ⟨hbal, -⟩ | ⟨-, -, hx⟩ := hrun.balance
      · have : r.held.toNat = 0 := by rw [hh]; rfl
        omega
      · exact hx
    have hres : BitVec.ofNat (W + 1) r.outIdx.toNat = r.req := BitVec.eq_of_toNat_eq (by rw [count_toNat, ho])
    exact ⟨⟨⟨by simp [encNext, encFinish, finish], by simp [encNext, encFinish, finish]⟩, .inl rfl, hinv.req_eq,
      hinv.held_le, hil, hol, fun _ => hres, fun h => by simp [encNext, encFinish, finish] at h⟩, rfl, rfl, rfl,
      by simp [encWrite], .inr ⟨rfl, by unfold encRemaining; omega, by simp [encNext, encFinish, finish, hres], ho⟩⟩

end Sys2Proof.Machine
end

