-- ==== Sys2Proof/Laws/Encoding.lean ====
section
/-! SUPPORT. The fields of a command word as numbers, for every width. -/

namespace Sys2Proof

theorem two_pow_two_mul (W : Nat) : 2 ^ (2 * W) = 2 ^ W * 2 ^ W := by rw [Nat.two_mul, pow_add]

theorem cmdCap_toNat {W : Nat} (w : CmdWord W) : (cmdCap w).toNat = w.toNat % 2 ^ W := by
  simp [cmdCap, BitVec.extractLsb'_toNat]

theorem cmdLen_toNat {W : Nat} (w : CmdWord W) : (cmdLen w).toNat = w.toNat / 2 ^ W % 2 ^ W := by
  simp [cmdLen, BitVec.extractLsb'_toNat, Nat.shiftRight_eq_div_pow]

theorem cmdOp_toNat {W : Nat} (w : CmdWord W) : (cmdOp w).toNat = w.toNat / 2 ^ (2 * W) := by
  have h : w.toNat / 2 ^ (2 * W) < 2 := by
    have := w.isLt
    rw [pow_succ] at this
    exact Nat.div_lt_of_lt_mul this
  rw [cmdOp, BitVec.getLsbD, Nat.testBit, Nat.shiftRight_eq_div_pow, Nat.one_and_eq_mod_two, Nat.mod_eq_of_lt h]
  generalize w.toNat / 2 ^ (2 * W) = q at *
  obtain rfl | rfl : q = 0 ∨ q = 1 := by omega
  all_goals rfl

/-- A command word is made up of its three fields (R70, R71). -/
theorem cmdWord_toNat {W : Nat} (w : CmdWord W) :
    w.toNat = (cmdOp w).toNat * 2 ^ (2 * W) + (cmdLen w).toNat * 2 ^ W + (cmdCap w).toNat := by
  have h1 := Nat.div_add_mod w.toNat (2 ^ W)
  have h2 := Nat.div_add_mod (w.toNat / 2 ^ W) (2 ^ W)
  rw [cmdOp_toNat, cmdLen_toNat, cmdCap_toNat, two_pow_two_mul, ← Nat.div_div_eq_div_mul]
  conv_lhs => rw [← h1, ← h2]
  ring

theorem packCmd_toNat {W : Nat} (op : Bool) (len cap : Idx W) :
    (packCmd op len cap).toNat = op.toNat * 2 ^ (2 * W) + len.toNat * 2 ^ W + cap.toNat := by
  have h1 : len.toNat * 2 ^ W + 2 ^ W ≤ 2 ^ (2 * W) := by
    rw [two_pow_two_mul, ← Nat.succ_mul]
    exact Nat.mul_le_mul_right _ len.isLt
  have h2 := cap.isLt
  have h3 : op.toNat * 2 ^ (2 * W) ≤ 1 * 2 ^ (2 * W) := Nat.mul_le_mul_right _ (Bool.toNat_le op)
  rw [packCmd, BitVec.toNat_ofNat, pow_succ]
  exact Nat.mod_eq_of_lt (by omega)

/-- The fields of a packed word are the ones packed. -/
theorem packCmd_fields {W : Nat} (op : Bool) (len cap : Idx W) :
    cmdOp (packCmd op len cap) = op ∧ cmdLen (packCmd op len cap) = len ∧ cmdCap (packCmd op len cap) = cap := by
  have hl := len.isLt
  have hc := cap.isLt
  have hw : (packCmd op len cap).toNat = 2 ^ W * (2 ^ W * op.toNat + len.toNat) + cap.toNat := by
    rw [packCmd_toNat, two_pow_two_mul]; ring
  have hd : (packCmd op len cap).toNat / 2 ^ W = 2 ^ W * op.toNat + len.toNat := by
    rw [hw, Nat.mul_add_div (by positivity), Nat.div_eq_of_lt hc, Nat.add_zero]
  refine ⟨?_, BitVec.eq_of_toNat_eq ?_, BitVec.eq_of_toNat_eq ?_⟩
  · have : (cmdOp (packCmd op len cap)).toNat = op.toNat := by
      rw [cmdOp_toNat, two_pow_two_mul, ← Nat.div_div_eq_div_mul, hd, Nat.mul_add_div (by positivity),
        Nat.div_eq_of_lt hl, Nat.add_zero]
    cases h : cmdOp (packCmd op len cap) <;> cases op <;> simp_all
  · rw [cmdLen_toNat, hd, Nat.mul_add_mod, Nat.mod_eq_of_lt hl]
  · rw [cmdCap_toNat, hw, Nat.mul_add_mod, Nat.mod_eq_of_lt hc]

/-- The command a word stands for has the word's fields. -/
theorem decodeCmd_fields {W : Nat} (b : Block) (w : CmdWord W) :
    (decodeCmd b w).block = b ∧ (decodeCmd b w).op = cmdOp w ∧ (decodeCmd b w).len = (cmdLen w).toNat ∧
      (decodeCmd b w).cap = (cmdCap w).toNat := by
  cases b <;> cases ho : cmdOp w <;>
    simp only [decodeCmd, ho, Instr.block, Instr.op, Instr.len, Instr.cap, and_self]

theorem Instr.wellFormed_iff {W : Nat} {i : Instr} : i.wellFormed W = true ↔ i.len < 2 ^ W ∧ i.cap < 2 ^ W := by
  simp [Instr.wellFormed, Instr.lenOk, Instr.capOk]

/-- The number of the word of a well-formed command. -/
theorem encodeCmd_toNat {W : Nat} {i : Instr} (h : i.wellFormed W = true) :
    (encodeCmd W i).toNat = i.op.toNat * 2 ^ (2 * W) + i.len * 2 ^ W + i.cap := by
  obtain ⟨h1, h2⟩ := Instr.wellFormed_iff.1 h
  rw [encodeCmd, packCmd_toNat, BitVec.toNat_ofNat, BitVec.toNat_ofNat, Nat.mod_eq_of_lt h1, Nat.mod_eq_of_lt h2]

end Sys2Proof
end

