-- ==== Sys2Proof/Laws/PerInstr.lean ====
section
/-! SUPPORT. Statements made of every command as a term, one lemma per constructor (LAWS.json). -/

namespace Sys2Proof.Laws.OpcodeMap

/-- The opcode map as numbers (R72), at every width: the word of the command lies below `2^(2W)` exactly when its `op` bit is 0,
and less its `cap` it is a multiple of `2^W`. -/
def Statement (i : Instr) : Prop :=
  ∀ W, i.wellFormed W = true →
    ((encodeCmd W i).toNat < 2 ^ (2 * W) ↔ i.op = false) ∧ ((encodeCmd W i).toNat - i.cap) % 2 ^ W = 0

theorem of_fields {W : Nat} {i : Instr} (h : i.wellFormed W = true) :
    ((encodeCmd W i).toNat < 2 ^ (2 * W) ↔ i.op = false) ∧ ((encodeCmd W i).toNat - i.cap) % 2 ^ W = 0 := by
  obtain ⟨h1, h2⟩ := Instr.wellFormed_iff.1 h
  have h3 : i.len * 2 ^ W + 2 ^ W ≤ 2 ^ (2 * W) := by
    rw [two_pow_two_mul, ← Nat.succ_mul]
    exact Nat.mul_le_mul_right _ h1
  rw [encodeCmd_toNat h]
  constructor
  · cases i.op <;> simp only [Bool.toNat_false, Bool.toNat_true, Bool.true_eq_false, iff_true, iff_false] <;> omega
  · rw [Nat.add_sub_cancel, two_pow_two_mul, ← Nat.mul_assoc, ← Nat.add_mul, Nat.mul_mod_left]

theorem enclen (len cap : Nat) : Statement (.enclen len cap) := fun _ => of_fields

theorem encode (len cap : Nat) : Statement (.encode len cap) := fun _ => of_fields

theorem datalen (len cap : Nat) : Statement (.datalen len cap) := fun _ => of_fields

theorem decode (len cap : Nat) : Statement (.decode len cap) := fun _ => of_fields

end Sys2Proof.Laws.OpcodeMap
end

