-- ==== Sys2Proof/Laws/Runs.lean ====
section
/-! SUPPORT. The running step of a block at the level of the state, and runs of one block (`runBlock`), one step at a time. -/

namespace Sys2Proof.Machine

theorem Codec.applyWrite_withTurns {W : Nat} (s : Codec W) (sp : Space) (w : Option (ObWrite W)) (ts : List (Turn W)) :
    (s.applyWrite sp w).withTurns ts = (s.withTurns ts).applyWrite sp w := by
  cases w <;> cases sp <;> rfl

/-- A running step does the same whatever turns are to come. -/
theorem runStep_withTurns {W : Nat} {s t : Codec W} {b : Block} (ts : List (Turn W)) (h : runStep b s = .next ⟨W, t⟩) :
    runStep b (s.withTurns ts) = .next ⟨W, t.withTurns ts⟩ := by
  cases b
  · obtain ⟨k, hk, e⟩ := encRunStep_next h
    cases e
    simp only [runStep, encRunStep, Codec.withTurns_enc, Codec.withTurns_ibRdata, hk, Codec.applyWrite_withTurns]
    rfl
  · obtain ⟨k, hk, e⟩ := decRunStep_next h
    cases e
    simp only [runStep, decRunStep, Codec.withTurns_dec, Codec.withTurns_ibRdata, hk, Codec.applyWrite_withTurns]
    rfl

theorem runStep_turns {W : Nat} {s t : Codec W} {b : Block} (h : runStep b s = .next ⟨W, t⟩) : t.turns = s.turns := by
  cases b
  · obtain ⟨k, -, e⟩ := encRunStep_next h; cases e; simp
  · obtain ⟨k, -, e⟩ := decRunStep_next h; cases e; simp

/-- A running step leaves everything outside its block alone. -/
theorem runStep_sameOutside {W : Nat} {s t : Codec W} {b : Block} (h : runStep b s = .next ⟨W, t⟩) :
    sameOutside b s t := by
  cases b
  · obtain ⟨k, -, e⟩ := encRunStep_next h
    cases e
    cases encWrite s.enc k <;> exact ⟨rfl, rfl, rfl, rfl, rfl, rfl⟩
  · obtain ⟨k, -, e⟩ := decRunStep_next h
    cases e
    cases (decNext s.dec (s.ibRdata .decIbuf (decReadAddr s.dec k)) k).2 <;> exact ⟨rfl, rfl, rfl, rfl, rfl, rfl⟩

theorem sameOutside.trans {W : Nat} {b : Block} {s t u : Codec W} (h : sameOutside b s t) (h' : sameOutside b t u) :
    sameOutside b s u := by
  cases b <;> simp_all [sameOutside]

theorem run_succ {M : Host.Core} {s t : M.State} (n : Nat) (h : M.step s = .next t) : M.run (n + 1) s = M.run n t := by
  rw [Host.Core.run, h]

@[simp] theorem runBlock_zero {W : Nat} (b : Block) (s : Codec W) : runBlock b 0 s = .next ⟨W, s⟩ := rfl

/-- A run of a `BUSY` block begins with its running step. -/
theorem runBlock_succ {W : Nat} {b : Block} {s t : Codec W} (n : Nat) (hb : s.busy b = true)
    (h : runStep b s = .next ⟨W, t⟩) : runBlock b (n + 1) s = runBlock b n t := by
  have ht : (s.giveTurns b (n + 1)).turns = .block b :: (List.replicate n (.block b) ++ s.turns) := by
    simp [Codec.giveTurns, List.replicate_succ]
  refine run_succ (M := Sys2Proof.core) n
    (show step ⟨W, s.giveTurns b (n + 1)⟩ = .next ⟨W, t.giveTurns b n⟩ from ?_)
  rw [step_block ht, blockTurn_busy (by simpa [Codec.giveTurns] using hb)]
  have : (s.giveTurns b (n + 1)).withTurns (List.replicate n (.block b) ++ s.turns) =
      s.withTurns (List.replicate n (.block b) ++ s.turns) := rfl
  rw [this, runStep_withTurns _ h, Codec.giveTurns, runStep_turns h]

end Sys2Proof.Machine
end

