-- ==== Sys2Proof/Tests/Slice0.lean ====
section
/-! SUPPORT. Tests against the spec's own words, and for every statement with hypotheses a named witness that meets them. The
expected values come from 30_encoding.md and 95_test_vectors.md, as each test says. -/

namespace Sys2Proof.Tests

open Sys2Proof Sys2Proof.Machine

/-! ### Well-formed lines (R75) and commands (R70): each check refuses a term that fails it alone -/

theorem test_line_of_P1 : (CommandLine.mk .enc .encode 3 (some 5)).wellFormed 32 = true := by decide

theorem test_line_block_mismatch_refused :
    (CommandLine.mk .dec .encode 3 (some 5)).blockOk = false ∧
      assemble 32 ⟨.dec, .encode, 3, some 5⟩ = .error .illFormedLine := by decide

theorem test_line_len_too_wide_refused :
    (CommandLine.mk .enc .encode 4294967296 (some 5)).lenOk 32 = false ∧
      (CommandLine.mk .enc .encode 4294967296 (some 5)).wellFormed 32 = false := by decide

theorem test_line_cap_missing_refused :
    (CommandLine.mk .enc .encode 3 none).capStated = false ∧
      assemble 32 ⟨.enc, .encode, 3, none⟩ = .error .illFormedLine := by decide

theorem test_line_cap_superfluous_refused :
    (CommandLine.mk .dec .datalen 3 (some 0)).capStated = false ∧
      (CommandLine.mk .dec .datalen 3 (some 0)).wellFormed 32 = false := by decide

theorem test_line_cap_too_wide_refused :
    (CommandLine.mk .dec .decode 3 (some 4294967296)).capOk 32 = false ∧
      (CommandLine.mk .dec .decode 3 (some 4294967296)).wellFormed 32 = false := by decide

theorem test_command_len_too_wide_refused :
    (Instr.enclen 256 0).lenOk 8 = false ∧ (Instr.enclen 256 0).wellFormed 8 = false ∧
      (Instr.enclen 255 0).wellFormed 8 = true := by decide

theorem test_command_cap_too_wide_refused :
    (Instr.decode 3 4294967296).capOk 32 = false ∧ (Instr.decode 3 4294967296).wellFormed 32 = false := by decide

/-! ### Words written out bit by bit: `op`, `W` bits of `len`, `W` bits of `cap` (R70, R71) -/

/-- P3 of 95_test_vectors.md, first command. -/
theorem test_decode_enclen :
    decodeCmd (W := 32) .enc 0b00000000000000000000000000000011000000000000000000000000000000000 = .enclen 6 0 := by decide

/-- P1 of 95_test_vectors.md. -/
theorem test_decode_encode :
    decodeCmd (W := 32) .enc 0b10000000000000000000000000000001100000000000000000000000000000101 = .encode 3 5 := by decide

/-- P3 of 95_test_vectors.md, third command. -/
theorem test_decode_datalen :
    decodeCmd (W := 32) .dec 0b00000000000000000000000000000101000000000000000000000000000000000 = .datalen 10 0 := by decide

/-- P2 of 95_test_vectors.md. -/
theorem test_decode_decode :
    decodeCmd (W := 32) .dec 0b10000000000000000000000000000100000000000000000000000000000000001 = .decode 8 1 := by decide

theorem test_encode_P3_words :
    encodeCmd 32 (.encode 6 10) = 0x1000000060000000A ∧ encodeCmd 32 (.decode 10 6) = 0x10000000A00000006 := by decide

/-- The highest and lowest bit of each field, each set alone. -/
theorem test_decode_field_edges :
    decodeCmd (W := 32) .enc 0b01000000000000000000000000000000000000000000000000000000000000000 = .enclen 2147483648 0 ∧
      decodeCmd (W := 32) .enc 0b00000000000000000000000000000000100000000000000000000000000000000 = .enclen 1 0 ∧
      decodeCmd (W := 32) .dec 0b10000000000000000000000000000000010000000000000000000000000000000 = .decode 0 2147483648 ∧
      decodeCmd (W := 32) .dec 0b10000000000000000000000000000000000000000000000000000000000000001 = .decode 0 1 := by decide

/-- Other widths (R5): 8 and 1. -/
theorem test_decode_other_widths :
    decodeCmd (W := 8) .enc 0b10000001100000101 = .encode 3 5 ∧ decodeCmd (W := 8) .dec 0b01111111100000001 = .datalen 255 1 ∧
      decodeCmd (W := 1) .dec 0b110 = .decode 1 0 := by decide

theorem test_number_too_wide_refused :
    decodeNumber 32 .enc 0x20000000000000000 = .error .wordTooWide ∧
      decodeNumber 8 .enc 0x20000 = .error .wordTooWide := by decide

/-- The host's table word: bit 65 names the port (notes/assumptions/5.md). -/
theorem test_table_words :
    decodeTableWord 72 0x10000000300000005 = some (.encode 3 5) ∧
      decodeTableWord 72 0x30000000800000001 = some (.decode 8 1) ∧
      decodeTableWord 72 0x400000000000000000 = none := by decide

/-! ### One step each -/

/-- The step answered a next state, and that state passes the check. -/
def after (o : Outcome) (check : State → Bool) : Bool :=
  match o with
  | .next t => check t
  | .fault _ => false
  | .refused _ => false

/-- ENC in the middle of a command, over an input that begins `"foo"`, with its turn next. -/
def encAt (r : EncRegs 32) : Codec 32 :=
  { Codec.reset 32 with enc := r, encIbuf := [(0, 0x66), (1, 0x6F), (2, 0x6F)], turns := [.block .enc] }

/-- DEC in the middle of a command over a given input, with its turn next. -/
def decAt (r : DecRegs 32) (input : Memory) : Codec 32 :=
  { Codec.reset 32 with dec := r, decIbuf := input, turns := [.block .dec] }

/-- ENC after `ENCODE len=3, cap=5`, with the registers of a row of the table of P1. -/
def encRow {W : Nat} (acc : Acc) (held : BitVec 4) (inIdx outIdx : Idx W) : EncRegs W :=
  { encStart .encode 3 5 with acc := acc, held := held, inIdx := inIdx, outIdx := outIdx }

/-- DEC after `DECODE len=10, cap=6` in the RUN pass, with the registers of a row of the table of P3. -/
def decRow {W : Nat} (acc : Acc) (bitsrem : BitVec 4) (inIdx outIdx : Idx W) : DecRegs W :=
  { decStart .decode 10 6 with
    phase := .run, k := 10, req := 6, acc := acc, bitsrem := bitsrem, inIdx := inIdx, outIdx := outIdx }

/-- 95_test_vectors.md section 2 and P3: `ENCLEN len=6` gives 10, without a step after acceptance. -/
theorem test_enclen_6 :
    after (exec (.enclen 6 0) State.reset) (fun t => t.codec.enc.status == ⟨.done, .noError, 10⟩) = true := by decide

/-- 95_test_vectors.md section 2: the largest `len` at `W` = 32; bit 32 of `RESULT` is used. -/
theorem test_enclen_max :
    after (exec (.enclen 4294967295 0) State.reset) (fun t => t.codec.enc.status == ⟨.done, .noError, 6871947672⟩) = true := by
  decide

/-- P1, step 6: LOAD with three stale bits and one live bit in front. -/
theorem test_encode_load :
    after (step ⟨32, encAt (encRow 0x66F 1 2 3)⟩) (fun t => t.codec.enc == encRow 0xF6F 9 3 3) = true := by decide

/-- P1, step 8: FLUSH writes `6` at 4. -/
theorem test_encode_flush :
    after (step ⟨32, encAt (encRow 0xF6F 4 3 4)⟩)
      (fun t => t.codec.enc == encRow 0xF6F 0 3 5 && t.codec.encObuf == [(4, 0x36)]) = true := by decide

/-- S12: `DATALEN` of `M0=` raises at index 1. -/
theorem test_datalen_scan_raises :
    after (step ⟨32, decAt { decStart .datalen 3 0 with k := 1, inIdx := 1 } [(0, 0x4D), (1, 0x30), (2, 0x3D)]⟩)
      (fun t => t.codec.dec.status == ⟨.error, .invalidCharacter, 0⟩ && t.codec.dec.k == 1 && t.codec.dec.inIdx == 1) =
        true := by decide

/-- 95_test_vectors.md section 3: ten symbols give 6. -/
theorem test_datalen_scan_end :
    after (step ⟨32, decAt { decStart .datalen 10 0 with k := 10, inIdx := 10 } []⟩)
      (fun t => t.codec.dec.status == ⟨.done, .noError, 6⟩) = true := by decide

/-- P3, step 15 of the DECODE trace: the 12-bit maximum of `a`. -/
theorem test_decode_run_max :
    after (step ⟨32, decAt (decRow 0x037 1 3 1) [(3, 0x57)]⟩)
      (fun t => t.codec.dec == decRow 0x006 4 4 2 && t.codec.decObuf == [(1, 0x6F)]) = true := by decide

/-- P3, step 19 of the DECODE trace: `t` = 0. -/
theorem test_decode_run_t0 :
    after (step ⟨32, decAt (decRow 0x003 5 7 4) [(7, 0x42)]⟩)
      (fun t => t.codec.dec == decRow 0x000 8 8 5 && t.codec.decObuf == [(4, 0x61)]) = true := by decide

/-- The next step of a state that holds a fetched word runs it. -/
theorem test_fetched_word_runs :
    after (step (State.reset.withFetchWord 72 0x00000000600000000))
      (fun t => t.codec.enc.status == ⟨.done, .noError, 10⟩) = true := by decide

/-- `W` = 8 (R5, R82): the largest `len` gives `ceil(2040/5)` = 408, which needs the ninth bit of `RESULT`. -/
theorem test_enclen_max_at_width_8 :
    after (exec (.enclen 255 0) (State.resetAt 8))
      (fun t => t.W == 8 && t.codec.enc.status == ⟨.done, .noError, 408⟩) = true := by decide

/-! ### Witnesses -/

/-- Both blocks right after reset, at the default width. -/
abbrev ready : Codec 32 := Codec.reset 32

/-- ENC has accepted `ENCODE len=1, cap=2` over the byte 0x66, DEC has accepted `DECODE len=1, cap=1` over `M` (P6, cut). -/
def bothBusy (ts : List (Turn 32)) : Codec 32 :=
  { ready with
    enc := encStart .encode 1 2, dec := decStart .decode 1 1, encIbuf := [(0, 0x66)], decIbuf := [(0, 0x4D)], turns := ts }

theorem witness_OpcodeMapOfBothPorts :
    (0xFFFFFFFFFFFFFFFF : CmdWord 32).toNat < 2 ^ (2 * 32) ∧ 2 ^ (2 * 32) ≤ (0x10000000000000000 : CmdWord 32).toNat := by
  decide

/-- The largest and the smallest command of two widths. -/
theorem witness_DecodeAndEncodeAgree :
    (Instr.decode 4294967295 4294967295).wellFormed 32 = true ∧ (Instr.enclen 0 0).wellFormed 32 = true ∧
      (Instr.encode 1 1).wellFormed 1 = true := by decide

theorem witness_ScriptLinesBecomeCommands :
    (CommandLine.mk .enc .enclen 4294967295 none).wellFormed 32 = true ∧
      (CommandLine.mk .dec .decode 8 (some 4294967296)).wellFormed 32 = false := by decide

theorem witness_AlphaIsTheAlphabet : (25 : SymVal).toNat ≤ 25 ∧ 26 ≤ (26 : SymVal).toNat := by decide

theorem witness_ClassifyInvertsAlpha : alpha 31 = alpha 31 := rfl

theorem witness_ClassifierTable :
    (∀ c ∈ [(0x41 : Byte), 0x5A], 0x41 ≤ c.toNat ∧ c.toNat ≤ 0x5A) ∧
      (∀ c ∈ [(0x32 : Byte), 0x37], 0x32 ≤ c.toNat ∧ c.toNat ≤ 0x37) ∧ (0x3D : Byte).toNat = 0x3D ∧
      ∀ c ∈ [(0x31 : Byte), 0x38, 0x40, 0x5B, 0x00, 0xFF],
        ¬ (0x41 ≤ c.toNat ∧ c.toNat ≤ 0x5A) ∧ ¬ (0x32 ≤ c.toNat ∧ c.toNat ≤ 0x37) ∧ c.toNat ≠ 0x3D := by decide

theorem witness_StatusPortCodes :
    (ready.status .enc).state = .idle ∧ ((bothBusy []).status .dec).state = .busy ∧
      ((encAt { encRow 0 0 3 5 with status := finish 5 }).status .enc).state = .done ∧
      (∀ e : Exn, ((decAt { decRow 0 8 0 0 with status := raise e } []).status .dec).state = .error) ∧
      (ready.status .dec).err = .noError ∧
      ((decAt { decRow 0 8 0 0 with status := raise .invalidCharacter } []).status .dec).err = .invalidCharacter ∧
      ((decAt { decRow 0 8 0 0 with status := raise .insufficientOutputCapacity } []).status .dec).err =
        .insufficientOutputCapacity ∧
      ((decAt { decRow 0 8 0 0 with status := raise .boundsFault } []).status .dec).err = .boundsFault := by
  refine ⟨rfl, rfl, rfl, ?_, rfl, rfl, rfl, rfl⟩
  intro e
  rfl

theorem witness_LengthsNeverWrap : 0 < (1 : Idx 32).toNat ∧ 0 < (1 : Idx 1).toNat := by decide

/-- `MY` has the two symbols of one byte. -/
theorem witness_DataLenUndoesEnclen : symCount [0x4D, 0x3D, 0x59] = enclen 1 := by decide

theorem witness_EnclenCompletes : ready.busy .enc = false := by decide

/-- Both sides of the capacity check. -/
theorem witness_EncodeIsAccepted :
    ready.busy .enc = false ∧ (4 : Idx 32).toNat < enclen (3 : Idx 32).toNat ∧
      enclen (3 : Idx 32).toNat ≤ (5 : Idx 32).toNat := by decide

theorem witness_DatalenAndDecodeAreAccepted : ready.busy .dec = false := by decide

theorem witness_EarlierCallsLeaveNoTrace :
    ready.busy (Instr.encode 3 5).block = false ∧
      (encAt { encRow 0xF6F 0 3 5 with status := finish 5 }).busy (Instr.encode 3 5).block = false := by decide

theorem witness_BusyBlockTakesNoCommand :
    (bothBusy [.block .enc]).busy (Instr.encode 3 5).block = true ∧
      ∃ t : Codec 32, step ⟨32, bothBusy [.block .enc]⟩ = .next ⟨32, t⟩ ∧
        (bothBusy [.block .enc]).turns = .block .enc :: [] :=
  ⟨by decide, _, rfl, rfl⟩

/-- ENC after reset, DEC `BUSY`, and no turn chosen. -/
def decBusy : Codec 32 := { ready with dec := decStart .decode 1 1 }

/-- A turn chosen: a command on the port, none, a `BUSY` block. No turn chosen: ENC offered a command, ENC `BUSY`, DEC offered a
command, DEC `BUSY`, nothing to do. -/
theorem witness_StepRunsTheDecodedCommand :
    ((offerNext .dec 5 ready).turns = .block .dec :: [] ∧ (offerNext .dec 5 ready).cmd .dec = some 5 ∧
      (offerNext .dec 5 ready).busy .dec = false) ∧
    ((ready.withTurns [.block .enc]).turns = .block .enc :: [] ∧ (ready.withTurns [.block .enc]).busy .enc = false ∧
      (ready.withTurns [.block .enc]).cmd .enc = none) ∧
    ((bothBusy [.block .dec]).turns = .block .dec :: [] ∧ (bothBusy [.block .dec]).busy .dec = true) ∧
    ((ready.setCmd .enc (some 5)).turns = [] ∧ (ready.setCmd .enc (some 5)).encCmd = some 5 ∧
      (ready.setCmd .enc (some 5)).busy .enc = false) ∧
    ((bothBusy []).turns = [] ∧ (bothBusy []).busy .enc = true) ∧
    ((ready.setCmd .dec (some 5)).turns = [] ∧ (ready.setCmd .dec (some 5)).encCmd = none ∧
      (ready.setCmd .dec (some 5)).busy .enc = false ∧ (ready.setCmd .dec (some 5)).decCmd = some 5 ∧
      (ready.setCmd .dec (some 5)).busy .dec = false) ∧
    (decBusy.turns = [] ∧ decBusy.busy .enc = false ∧ decBusy.encCmd = none ∧ decBusy.busy .dec = true) ∧
    (ready.turns = [] ∧ ready.busy .enc = false ∧ ready.encCmd = none ∧ ready.busy .dec = false ∧
      ready.decCmd = none) := by decide

/-- `HELD` at its upper bound, the last byte of the input. -/
theorem witness_LoadStep :
    (encAt (encRow 0x66F 4 2 3)).turns = .block .enc :: [] ∧ (encAt (encRow 0x66F 4 2 3)).busy .enc = true ∧
      (encAt (encRow 0x66F 4 2 3)).enc.held.toNat ≤ 4 ∧
      (encAt (encRow 0x66F 4 2 3)).enc.inIdx.toNat < (encAt (encRow 0x66F 4 2 3)).enc.len.toNat := by decide

/-- `HELD` at both bounds. -/
theorem witness_EmitStep :
    ∀ h ∈ [(5 : BitVec 4), 12],
      (encAt (encRow 0xF62 h 2 3)).turns = .block .enc :: [] ∧ (encAt (encRow 0xF62 h 2 3)).busy .enc = true ∧
      5 ≤ (encAt (encRow 0xF62 h 2 3)).enc.held.toNat ∧ (encAt (encRow 0xF62 h 2 3)).enc.held.toNat ≤ 12 := by decide

/-- `HELD` at both bounds. -/
theorem witness_FlushStep :
    ∀ h ∈ [(1 : BitVec 4), 4],
      (encAt (encRow 0xF6F h 3 4)).turns = .block .enc :: [] ∧ (encAt (encRow 0xF6F h 3 4)).busy .enc = true ∧
      1 ≤ (encAt (encRow 0xF6F h 3 4)).enc.held.toNat ∧ (encAt (encRow 0xF6F h 3 4)).enc.held.toNat ≤ 4 ∧
      (encAt (encRow 0xF6F h 3 4)).enc.inIdx = (encAt (encRow 0xF6F h 3 4)).enc.len := by decide

theorem witness_FinishStep :
    (encAt (encRow 0xF6F 0 3 5)).turns = .block .enc :: [] ∧ (encAt (encRow 0xF6F 0 3 5)).busy .enc = true ∧
      (encAt (encRow 0xF6F 0 3 5)).enc.held = 0 ∧
      (encAt (encRow 0xF6F 0 3 5)).enc.inIdx = (encAt (encRow 0xF6F 0 3 5)).enc.len := by decide

/-- One code unit of each class, and the last index of the input. -/
theorem witness_ScanStep :
    (∀ c ∈ [(0x30 : Byte), 0x3D, 0x4D],
      (decAt (decStart .decode 1 1) [(0, c)]).turns = .block .dec :: [] ∧
      (decAt (decStart .decode 1 1) [(0, c)]).busy .dec = true ∧
      (decAt (decStart .decode 1 1) [(0, c)]).dec.phase = .scan ∧
      (decAt (decStart .decode 1 1) [(0, c)]).dec.inIdx.toNat < (decAt (decStart .decode 1 1) [(0, c)]).dec.len.toNat) ∧
    classify ((decAt (decStart .decode 1 1) [(0, 0x30)]).readCell .decIbuf 0) = .invalid ∧
    classify ((decAt (decStart .decode 1 1) [(0, 0x3D)]).readCell .decIbuf 0) = .pad ∧
    classify ((decAt (decStart .decode 1 1) [(0, 0x4D)]).readCell .decIbuf 0) = .sym 12 := by
  refine ⟨by decide, rfl, rfl, rfl⟩

/-- DATALEN, and DECODE with `CAP` on both sides of the six bytes of ten symbols. -/
theorem witness_ScanEndStep :
    (∀ r ∈ [({ decStart .datalen 10 0 with k := 10, inIdx := 10 } : DecRegs 32),
        { decStart .decode 10 5 with k := 10, inIdx := 10 }, { decStart .decode 10 6 with k := 10, inIdx := 10 }],
      (decAt r []).turns = .block .dec :: [] ∧ (decAt r []).busy .dec = true ∧ (decAt r []).dec.phase = .scan ∧
      (decAt r []).dec.inIdx = (decAt r []).dec.len) ∧
    (5 : Idx 32).toNat < dataLen (10 : Idx 32).toNat ∧
    dataLen (10 : Idx 32).toNat ≤ (6 : Idx 32).toNat := by decide

/-- The five cases of RUN: `0`, `=`, and `W` with `BITSREM` = 6, and with `BITSREM` = 5 and `OUT_IDX` at and just below `CAP`. -/
theorem witness_RunStep :
    (∀ r ∈ [decRow 0x001 6 3 1, decRow 0x003 5 3 6, decRow 0x003 5 3 5], ∀ c ∈ [(0x30 : Byte), 0x3D, 0x57],
      (decAt r [(3, c)]).turns = .block .dec :: [] ∧ (decAt r [(3, c)]).busy .dec = true ∧
      (decAt r [(3, c)]).dec.phase = .run ∧ (decAt r [(3, c)]).dec.inIdx.toNat < (decAt r [(3, c)]).dec.len.toNat) ∧
    (∀ r : DecRegs 32,
      classify ((decAt r [(3, 0x30)]).readCell .decIbuf 3) = .invalid ∧
      classify ((decAt r [(3, 0x3D)]).readCell .decIbuf 3) = .pad ∧
      classify ((decAt r [(3, 0x57)]).readCell .decIbuf 3) = .sym 22) ∧
    5 < (decRow (W := 32) 0x001 6 3 1).bitsrem.toNat ∧ (decRow (W := 32) 0x003 5 3 6).bitsrem.toNat ≤ 5 ∧
    (decRow (W := 32) 0x003 5 3 6).cap.toNat ≤ (decRow (W := 32) 0x003 5 3 6).outIdx.toNat ∧
    (decRow (W := 32) 0x003 5 3 5).outIdx.toNat < (decRow (W := 32) 0x003 5 3 5).cap.toNat := by
  refine ⟨by decide, fun r => ⟨rfl, rfl, rfl⟩, by decide, by decide, by decide, by decide⟩

theorem witness_RunEndStep :
    (decAt (decRow 0 6 10 6) []).turns = .block .dec :: [] ∧ (decAt (decRow 0 6 10 6) []).busy .dec = true ∧
      (decAt (decRow 0 6 10 6) []).dec.phase = .run ∧
      (decAt (decRow 0 6 10 6) []).dec.inIdx = (decAt (decRow 0 6 10 6) []).dec.len := by decide

theorem witness_EncodeRunsToItsResult :
    ready.busy .enc = false ∧ enclen (3 : Idx 32).toNat ≤ (5 : Idx 32).toNat := by decide

/-- The text `MY=`, ready. -/
def textReady : Codec 32 := { ready with decIbuf := [(0, 0x4D), (1, 0x59), (2, 0x3D)] }

theorem textReady_valid : allValid (textReady.input .decIbuf (3 : Idx 32).toNat) := by
  intro c hc
  have hc' : c = 0x4D ∨ c = 0x59 ∨ c = 0x3D := by
    simpa [textReady, Codec.input, Codec.cells, Codec.readCell, Codec.buf, Memory.get, List.range_succ] using hc
  rcases hc' with rfl | rfl | rfl <;> decide

theorem witness_DatalenRunsToItsResult :
    textReady.busy .dec = false ∧ allValid (textReady.input .decIbuf (3 : Idx 32).toNat) :=
  ⟨by decide, textReady_valid⟩

theorem witness_DecodeRunsToItsResult :
    textReady.busy .dec = false ∧ allValid (textReady.input .decIbuf (3 : Idx 32).toNat) ∧
      dataLenOf (textReady.input .decIbuf (3 : Idx 32).toNat) ≤ (1 : Idx 32).toNat :=
  ⟨by decide, textReady_valid, by decide⟩

theorem witness_TooSmallAnOutputFailsAtomically :
    textReady.busy .dec = false ∧ allValid (textReady.input .decIbuf (3 : Idx 32).toNat) ∧
      (0 : Idx 32).toNat < dataLenOf (textReady.input .decIbuf (3 : Idx 32).toNat) :=
  ⟨by decide, textReady_valid, by decide⟩

/-- `0` at index 0, the one code unit of the input. -/
theorem witness_FirstInvalidCharacterEndsTheOperation :
    let s := { ready with decIbuf := [(0, 0x30)] }
    s.busy .dec = false ∧ 0 < (1 : Idx 32).toNat ∧ allValid (s.input .decIbuf 0) ∧
      classify (s.readCell .decIbuf 0) = .invalid := by
  refine ⟨by decide, by decide, ?_, rfl⟩
  intro c hc
  simp [Codec.input, Codec.cells] at hc

theorem witness_DecoderLoopIsTheBitStream : allValid [] ∧ ¬ allValid [0x30] :=
  ⟨by simp [allValid], fun h => h 0x30 (by simp) (by decide)⟩

theorem witness_PaddingChangesNothing :
    ([0x4D, 0x59, 0x3D] : List Byte).filter (· != padChar) = ([0x3D, 0x4D, 0x59] : List Byte).filter (· != padChar) := by
  decide

/-- The byte 0x66 through ENCODE, and `M=Y` as the text of another machine. -/
theorem witness_RoundTripThroughBothBlocks :
    let s := { ready with encIbuf := [(0, 0x66)] }
    let v := { ready with decIbuf := [(0, 0x4D), (1, 0x3D), (2, 0x59)] }
    ∃ t u : Codec 32, s.busy .enc = false ∧ enclen (1 : Idx 32).toNat ≤ (2 : Idx 32).toNat ∧
      exec (.encode 1 2) ⟨32, s⟩ = .next ⟨32, t⟩ ∧
      runBlock .enc ((1 : Idx 32).toNat + enclen (1 : Idx 32).toNat + 1) t = .next ⟨32, u⟩ ∧ v.busy .dec = false ∧
      (v.input .decIbuf (3 : Idx 32).toNat).filter (· != padChar) = u.cells .encObuf (enclen (1 : Idx 32).toNat) ∧
      (1 : Idx 32).toNat ≤ (1 : Idx 32).toNat :=
  ⟨_, _, by decide, by decide, rfl, rfl, by decide, rfl, le_rfl⟩

theorem witness_RaiseEndsTheOperation :
    let s := decAt (decStart .decode 1 1) [(0, 0x30)]
    ∃ t : Codec 32, s.busy .dec = true ∧ s.turns = .block .dec :: [] ∧ step ⟨32, s⟩ = .next ⟨32, t⟩ ∧
      (t.status .dec).state = .error :=
  ⟨_, by decide, rfl, rfl, rfl⟩

theorem witness_NextCommandLeavesTheErrorState :
    (Instr.encode 3 5).wellFormed 32 = true ∧
      ((encAt { encRow 0 0 0 0 with status := raise .insufficientOutputCapacity }).status (Instr.encode 3 5).block).state =
        .error := by decide

/-- A running step and a reset. -/
theorem witness_EncoderStateTransitions :
    ∃ t u : State, step ⟨32, bothBusy [.block .enc]⟩ = .next t ∧ step ⟨32, bothBusy [.host (.reset .enc)]⟩ = .next u :=
  ⟨_, _, rfl, rfl⟩

/-- A running step and a reset. -/
theorem witness_DecoderStateTransitions :
    ∃ t u : State, step ⟨32, bothBusy [.block .dec]⟩ = .next t ∧ step ⟨32, bothBusy [.host (.reset .dec)]⟩ = .next u :=
  ⟨_, _, rfl, rfl⟩

theorem witness_ResetOfABlock : (bothBusy [.host (.reset .dec)]).turns = .host (.reset .dec) :: [] := rfl

theorem witness_CellsReadBackWhatWasStored :
    (Space.decObuf ≠ Space.encObuf ∨ 0 ≠ (0 : Idx 32).toNat) ∧
      (Space.encObuf ≠ Space.encObuf ∨ 4294967294 ≠ (4294967295 : Idx 32).toNat) ∧
      ((bothBusy []).buf .decIbuf).wf 32 = true :=
  ⟨.inl (by decide), .inr (by decide), by rfl⟩

/-- A running step that stores, one that does not, and an accepting turn. -/
theorem witness_BlockTurnStoresWhatThePortShows :
    (∃ (t : Codec 32) (w : ObWrite 32), step ⟨32, encAt (encRow 0x066 8 1 0)⟩ = .next ⟨32, t⟩ ∧
      (encAt (encRow 0x066 8 1 0)).obPort .enc = some w ∧
      (encAt (encRow 0x066 8 1 0)).busy .enc = true ∧ (encAt (encRow 0x066 8 1 0)).turns = .block .enc :: []) ∧
    (∃ t : Codec 32, step ⟨32, encAt (encRow 0 0 0 0)⟩ = .next ⟨32, t⟩ ∧
      (encAt (encRow 0 0 0 0)).obPort .enc = none) ∧
    ∃ t : Codec 32, step ⟨32, offerNext .enc 5 ready⟩ = .next ⟨32, t⟩ ∧ (offerNext .enc 5 ready).busy .enc = false :=
  ⟨⟨_, _, rfl, rfl, rfl, rfl⟩, ⟨_, rfl, rfl⟩, ⟨_, rfl, rfl⟩⟩

theorem witness_EncoderNeverWritesPadding :
    ∃ t : Codec 32, (∀ m ts, (encAt (encRow 0x066 8 1 0)).turns ≠ .host m :: ts) ∧
      step ⟨32, encAt (encRow 0x066 8 1 0)⟩ = .next ⟨32, t⟩ :=
  ⟨_, fun _ _ h => (by simp [encAt] at h), rfl⟩

theorem witness_BlockTurnsCommute :
    ∃ t t' : Codec 32, step ⟨32, (bothBusy []).withTurns (.block .enc :: [])⟩ = .next ⟨32, t⟩ ∧
      step ⟨32, (bothBusy []).withTurns (.block .dec :: [])⟩ = .next ⟨32, t'⟩ := ⟨_, _, rfl, rfl⟩

/-- One move of each clause; the copies from and into the highest cell, and one from the input buffer of a `BUSY` block. -/
theorem witness_BorrowedBuffersAreRefused :
    ((bothBusy [.host (.write .encIbuf 0 1)]).busy (Space.block .encIbuf) = true ∧
      (bothBusy [.host (.write .encIbuf 0 1)]).turns = .host (.write .encIbuf 0 1) :: []) ∧
    (Space.isInput .decObuf = false ∧ (bothBusy [.host (.read .decObuf 0)]).busy (Space.block .decObuf) = true ∧
      (bothBusy [.host (.read .decObuf 0)]).turns = .host (.read .decObuf 0) :: []) ∧
    (Space.isInput .decObuf = false ∧
      (decBusy.withTurns [.host (.copy .decObuf 4294967295 .encIbuf 0)]).busy (Space.block .decObuf) = true ∧
      (decBusy.withTurns [.host (.copy .decObuf 4294967295 .encIbuf 0)]).turns =
        .host (.copy .decObuf 4294967295 .encIbuf 0) :: []) ∧
    (((decBusy.withTurns [.host (.copy .encObuf 0 .decIbuf 4294967295)]).busy (Space.block .encObuf) = false ∧
        Space.isInput .encIbuf = true) ∧
      (decBusy.withTurns [.host (.copy .encObuf 0 .decIbuf 4294967295)]).busy (Space.block .decIbuf) = true ∧
      (decBusy.withTurns [.host (.copy .encObuf 0 .decIbuf 4294967295)]).turns =
        .host (.copy .encObuf 0 .decIbuf 4294967295) :: []) := by decide

/-- One move of each clause: a store into the highest cell; copies out of a ready block's output buffer and out of a `BUSY` block's
input buffer; reads of the same two; the moves that are free at any time. -/
theorem witness_HostMovesOutsideTheBorrow :
    ((ready.withTurns [.host (.write .encIbuf 4294967295 1)]).busy (Space.block .encIbuf) = false ∧
      (ready.withTurns [.host (.write .encIbuf 4294967295 1)]).turns = .host (.write .encIbuf 4294967295 1) :: []) ∧
    ((ready.withTurns [.host (.copy .encObuf 0 .decIbuf 4294967295)]).busy (Space.block .encObuf) = false ∧
      (ready.withTurns [.host (.copy .encObuf 0 .decIbuf 4294967295)]).busy (Space.block .decIbuf) = false ∧
      (ready.withTurns [.host (.copy .encObuf 0 .decIbuf 4294967295)]).turns =
        .host (.copy .encObuf 0 .decIbuf 4294967295) :: []) ∧
    (Space.isInput .decIbuf = true ∧
      (decBusy.withTurns [.host (.copy .decIbuf 0 .encIbuf 0)]).busy (Space.block .encIbuf) = false ∧
      (decBusy.withTurns [.host (.copy .decIbuf 0 .encIbuf 0)]).turns = .host (.copy .decIbuf 0 .encIbuf 0) :: []) ∧
    ((ready.withTurns [.host (.read .decObuf 0)]).busy (Space.block .decObuf) = false ∧
      (ready.withTurns [.host (.read .decObuf 0)]).turns = .host (.read .decObuf 0) :: [] ∧
      (decBusy.withTurns [.host (.read .decIbuf 0)]).turns = .host (.read .decIbuf 0) :: []) ∧
    ((bothBusy [.host (.drive .enc 5)]).turns = .host (.drive .enc 5) :: [] ∧
      (bothBusy [.host (.release .dec)]).turns = .host (.release .dec) :: [] ∧
      (bothBusy [.host (.readStatus .enc)]).turns = .host (.readStatus .enc) :: []) := by decide

/-- Both blocks `BUSY`, at the first step of their commands. -/
theorem bothBusy_inv (ts : List (Turn 32)) : (bothBusy ts).Inv where
  enc := encStart_inv .encode 1 2 _ _
  dec := decStart_inv .decode 1 1 _ _
  mem sp := by cases sp <;> rfl

theorem witness_StepKeepsTheInvariant :
    ∃ t : State, State.Inv ⟨32, bothBusy [.block .enc]⟩ ∧ step ⟨32, bothBusy [.block .enc]⟩ = .next t :=
  ⟨_, ⟨by decide, bothBusy_inv _⟩, rfl⟩

theorem witness_InvariantAtReset : 1 ≤ (State.resetAt 1).W := le_rfl

theorem witness_RegistersAreInTheirRanges : (bothBusy []).Inv := bothBusy_inv _

theorem witness_BusyBlockAlwaysHasAStep :
    (bothBusy [.block .dec]).Inv ∧ (bothBusy [.block .dec]).busy .dec = true ∧
      (bothBusy [.block .dec]).turns = .block .dec :: [] := ⟨bothBusy_inv _, by decide, rfl⟩

/-- The same with DEC after SCAN and SCAN_END over `M`, which has room for its 0 bytes: the RUN pass, at its first step. -/
def inRunPass : Codec 32 :=
  { bothBusy [.block .dec] with dec := decScanEnd (decScan (decStart .decode 1 1) 0x4D) }

theorem inRunPass_inv : inRunPass.Inv where
  enc := encStart_inv .encode 1 2 _ _
  dec := by
    have h := decScan_inv (c := 0x4D)
      (decStart_inv .decode (1 : Idx 32) 1 (inRunPass.input .decIbuf 1) (inRunPass.readCell .decObuf))
      (input_length _ _ _) rfl rfl (by decide) rfl
    exact (decScanEnd_inv h.1 (input_length _ _ _) rfl rfl rfl).1
  mem sp := by cases sp <;> rfl

theorem witness_RunPassNeverRaises :
    ∃ t : Codec 32, inRunPass.Inv ∧ inRunPass.busy .dec = true ∧ inRunPass.dec.phase = .run ∧
      inRunPass.turns = .block .dec :: [] ∧ step ⟨32, inRunPass⟩ = .next ⟨32, t⟩ :=
  ⟨_, inRunPass_inv, by decide, by decide, rfl, rfl⟩

/-- A ready and a `BUSY` block. -/
theorem witness_WaitLastsWhileTheBlockIsBusy :
    ((ready.withTurns [.wait .dec]).turns = .wait .dec :: [] ∧ (ready.withTurns [.wait .dec]).busy .dec = false) ∧
    ∃ t : Codec 32, (bothBusy [.wait .dec]).turns = .wait .dec :: [] ∧ (bothBusy [.wait .dec]).busy .dec = true ∧
      step ⟨32, bothBusy [.wait .dec]⟩ = .next ⟨32, t⟩ := ⟨by decide, _, rfl, by decide, rfl⟩

/-- The seven lines of R162: which commands over `MY=` and over `0` have which step count. -/
theorem witness_EveryOperationTakesItsStepCount :
    textReady.busy .enc = false ∧ textReady.busy .dec = false ∧
      (∀ i ∈ [Instr.enclen 3 0, .encode 3 4, .encode 3 5, .datalen 3 0, .decode 3 0, .decode 3 1],
        i.wellFormed 32 = true) ∧
      stepCount (.enclen 3 0) [] = 0 ∧ stepCount (.encode 3 4) [] = 0 ∧ stepCount (.encode 3 5) [] = 9 ∧
      stepCount (.datalen 3 0) [0x4D, 0x59, 0x3D] = 4 ∧ stepCount (.decode 3 1) [0x4D, 0x59, 0x3D] = 8 ∧
      stepCount (.decode 3 0) [0x4D, 0x59, 0x3D] = 4 ∧ stepCount (.decode 3 1) [0x4D, 0x30, 0x3D] = 2 := by decide

theorem witness_TheWidthNeverChanges :
    ∃ t u : State, step (State.resetAt 8) = .next t ∧ exec (.enclen 255 0) (State.resetAt 8) = .next u :=
  ⟨_, _, rfl, rfl⟩

end Sys2Proof.Tests
end

/-! The width of the machine (spec/00_scope.md, R5). -/

namespace Sys2Proof.Machine

/-- Placing a table word only offers it on a port, or does nothing. -/
@[simp] theorem State.withFetchWord_width (s : State) (nbits w : Nat) : (s.withFetchWord nbits w).W = s.W := by
  unfold State.withFetchWord
  split
  · rfl
  · rfl

/-- Settles O55: every next state of a step and of a command is a pair of blocks of the width it started with
(`step_width`, `exec_next`). -/
theorem theWidthNeverChanges : Obligations.TheWidthNeverChanges := by
  intro s t
  refine ⟨fun hstep => ?_, fun i hexec => ?_, s.withFetchWord_width⟩
  · obtain ⟨d, rfl⟩ := step_width hstep
    rfl
  · obtain ⟨d, rfl⟩ := exec_next hexec
    rfl

end Sys2Proof.Machine

/-! The state: the turns of the two blocks and their ports, the moves of the host, and the state after reset
(spec/10_state.md). -/

namespace Sys2Proof.Machine

variable {W : Nat}

/-! ### What the turn of a block stores and leaves alone -/

@[simp] theorem Codec.withTurns_obPort (s : Codec W) (ts : List (Turn W)) (b : Block) :
    (s.withTurns ts).obPort b = s.obPort b := by
  cases b <;> simp [Codec.obPort, Codec.ibPort]

/-- A block that is not `BUSY` drives no store (R30). -/
theorem Codec.obPort_of_not_busy {s : Codec W} {b : Block} (h : s.busy b = false) : s.obPort b = none := by
  simp [Codec.obPort, h]

/-- A `BUSY` ENC shows the store of its selected step. -/
theorem Codec.obPort_enc {s : Codec W} {k : EncStep} (hb : s.busy .enc = true) (hk : encSelect s.enc = some k) :
    s.obPort .enc = encWrite s.enc k := by
  simp [Codec.obPort, hb, hk]

/-- A `BUSY` DEC shows the store of its selected step, over the byte its read port answers. -/
theorem Codec.obPort_dec {s : Codec W} {k : DecStep} (hb : s.busy .dec = true) (hk : decSelect s.dec = some k) :
    s.obPort .dec = (decNext s.dec (s.ibRdata .decIbuf (decReadAddr s.dec k)) k).2 := by
  simp [Codec.obPort, Codec.ibPort, hb, hk]

theorem sameOutside_refl (b : Block) (s : Codec W) : sameOutside b s s := by
  cases b <;> exact ⟨rfl, rfl, rfl, rfl, rfl, rfl⟩

/-- The word on the port of the block does not matter once the same word is put on it in both states. -/
theorem sameOutside.setCmd {b : Block} {s t : Codec W} (h : sameOutside b s t) (c : Option (CmdWord W)) :
    sameOutside b (s.setCmd b c) (t.setCmd b c) := by
  cases b
  · obtain ⟨hdec, hencI, hdecI, hdecO, -, hdecC⟩ := h
    exact ⟨hdec, hencI, hdecI, hdecO, rfl, hdecC⟩
  · obtain ⟨henc, hdecI, hencI, hencO, hencC, -⟩ := h
    exact ⟨henc, hdecI, hencI, hencO, hencC, rfl⟩

/-- Who moves next is no part of what a turn leaves alone. -/
theorem sameOutside_withTurns {b : Block} {s t : Codec W} {ts : List (Turn W)} :
    sameOutside b (s.withTurns ts) t ↔ sameOutside b s t := by
  cases b <;> rfl

@[simp] theorem Codec.setCmd_setCmd (s : Codec W) (b : Block) (c d : Option (CmdWord W)) :
    (s.setCmd b c).setCmd b d = s.setCmd b d := by
  cases b <;> rfl

/-- A command offered to its block changes nothing but the registers of the block. -/
theorem exec_frame {i : Instr} {s t : Codec W} (h : exec i ⟨W, s⟩ = .next ⟨W, t⟩) :
    t.turns = s.turns ∧ sameBuffers s t ∧ sameOutside i.block s t := by
  cases hb : s.busy i.block with
  | true =>
    rw [exec_busy hb] at h
    cases h
    exact ⟨rfl, fun _ => rfl, sameOutside_refl _ _⟩
  | false =>
    cases hi : i.block <;> rw [hi] at hb
    · rw [exec_enc hi hb] at h
      cases h
      exact ⟨rfl, s.withEnc_buf _, rfl, rfl, rfl, rfl, rfl, rfl⟩
    · rw [exec_dec hi hb] at h
      cases h
      exact ⟨rfl, s.withDec_buf _, rfl, rfl, rfl, rfl, rfl, rfl⟩

/-- A running step is a change of the block's registers followed by the store its write port shows (R22, R30). -/
theorem runStep_stores {b : Block} {s t : Codec W} (hb : s.busy b = true) (h : runStep b s = .next ⟨W, t⟩) :
    ∃ r : Codec W, sameBuffers s r ∧ t = r.applyWrite (obufOf b) (s.obPort b) := by
  cases b with
  | enc =>
    obtain ⟨k, hk, e⟩ := encRunStep_next h
    cases e
    exact ⟨s.withEnc _, s.withEnc_buf _, by rw [Codec.obPort_enc hb hk]; rfl⟩
  | dec =>
    obtain ⟨k, hk, e⟩ := decRunStep_next h
    cases e
    exact ⟨s.withDec _, s.withDec_buf _, by rw [Codec.obPort_dec hb hk]; rfl⟩

/-- The turn of a ready block changes its registers and the word on its port, and nothing else. -/
theorem blockTurn_frame_of_not_busy {b : Block} {s t : Codec W} (hb : s.busy b = false)
    (h : blockTurn b s = .next ⟨W, t⟩) :
    t.turns = s.turns ∧ sameBuffers s t ∧ sameOutside b (s.setCmd b none) (t.setCmd b none) := by
  cases hc : s.cmd b with
  | none =>
    rw [blockTurn_idle hb hc] at h
    cases h
    exact ⟨rfl, fun _ => rfl, sameOutside_refl _ _⟩
  | some w =>
    rw [blockTurn_ready hb hc] at h
    obtain ⟨hturns, hbuf, hout⟩ := exec_frame h
    rw [decodeCmd_block] at hout
    refine ⟨by simpa using hturns, fun sp => by simpa using hbuf sp, ?_⟩
    simpa using hout.setCmd none

/-- The turn of a block changes the buffers by the store its write port shows, if any. -/
theorem blockTurn_stores {b : Block} {s t : Codec W} (h : blockTurn b s = .next ⟨W, t⟩) :
    ∃ r : Codec W, sameBuffers s r ∧ t = r.applyWrite (obufOf b) (s.obPort b) := by
  cases hb : s.busy b with
  | true => exact runStep_stores hb (blockTurn_busy hb ▸ h)
  | false =>
    obtain ⟨-, hbuf, -⟩ := blockTurn_frame_of_not_busy hb h
    exact ⟨t, hbuf, by rw [Codec.obPort_of_not_busy hb]; rfl⟩

theorem blockTurn_turns {b : Block} {s t : Codec W} (h : blockTurn b s = .next ⟨W, t⟩) : t.turns = s.turns := by
  cases hb : s.busy b with
  | true => exact runStep_turns (blockTurn_busy hb ▸ h)
  | false => exact (blockTurn_frame_of_not_busy hb h).1

/-- Settles O43: a turn is a change of the block's registers and of the word on its port, followed by the store the
write port shows (`blockTurn_stores`); what it leaves alone is `runStep_sameOutside` for a `BUSY` block and
`blockTurn_frame_of_not_busy` for a ready one. -/
theorem blockTurnStoresWhatThePortShows : Obligations.BlockTurnStoresWhatThePortShows := by
  intro W s t b ts hts hstep
  rw [step_block hts] at hstep
  obtain ⟨r, hr, ht⟩ := blockTurn_stores hstep
  rw [Codec.withTurns_obPort] at ht
  have hcells : ∀ sp, r.readCell sp = s.readCell sp := fun sp =>
    funext (Codec.readCell_congr ((hr sp).trans (s.withTurns_buf ts sp)))
  refine ⟨blockTurn_turns hstep, fun hport sp => ?_, fun w hport => ?_, fun hb => ?_, fun hb => ?_⟩
  · rw [ht, hport]
    exact (hr sp).trans (s.withTurns_buf ts sp)
  · have hread : t.readCell (obufOf b) = patched (s.readCell (obufOf b)) (some w) := by
      rw [ht, Codec.applyWrite_readCell, hport, hcells]
    exact ⟨by simp [hread, patched], fun a ha => by simp [hread, patched, ha]⟩
  · rw [blockTurn_busy (by simpa using hb)] at hstep
    exact sameOutside_withTurns.1 (runStep_sameOutside hstep)
  · obtain ⟨-, -, hout⟩ := blockTurn_frame_of_not_busy (by simpa using hb) hstep
    cases b <;> exact hout

/-! ### The turns of the two blocks are independent -/

/-- `s` with everything that belongs to one block taken from `src`: its registers, its two buffers and its command
port (R1, R25). -/
def Codec.graft (s : Codec W) (b : Block) (src : Codec W) : Codec W :=
  match b with
  | .enc => { s with enc := src.enc, encIbuf := src.encIbuf, encObuf := src.encObuf, encCmd := src.encCmd }
  | .dec => { s with dec := src.dec, decIbuf := src.decIbuf, decObuf := src.decObuf, decCmd := src.decCmd }

@[simp] theorem Codec.graft_status (u s : Codec W) (b : Block) : (u.graft b s).status b = s.status b := by
  cases b <;> rfl

@[simp] theorem Codec.graft_busy (u s : Codec W) (b : Block) : (u.graft b s).busy b = s.busy b := by
  simp [Codec.busy]

@[simp] theorem Codec.graft_cmd (u s : Codec W) (b : Block) : (u.graft b s).cmd b = s.cmd b := by
  cases b <;> rfl

theorem Codec.graft_setCmd (u s : Codec W) (b : Block) (c : Option (CmdWord W)) :
    (u.graft b s).setCmd b c = u.graft b (s.setCmd b c) := by
  cases b <;> rfl

/-- The read port of a block answers from the part of the block (R29). -/
theorem Codec.graft_ibRdata (u s : Codec W) (b : Block) : (u.graft b s).ibRdata (ibufOf b) = s.ibRdata (ibufOf b) := by
  funext a
  cases b <;> cases a <;> rfl

/-- Parts of different blocks do not overlap. -/
theorem Codec.graft_comm {b b' : Block} (hne : b' ≠ b) (s t t' : Codec W) :
    (s.graft b t).graft b' t' = (s.graft b' t').graft b t := by
  cases b <;> cases b'
  case enc.enc | dec.dec => exact absurd rfl hne
  case enc.dec | dec.enc => rfl

/-- A command runs on its block's part of the state, whatever stands around it. -/
theorem exec_graft {i : Instr} {s t : Codec W} (u : Codec W) (h : exec i ⟨W, s⟩ = .next ⟨W, t⟩) :
    exec i ⟨W, u.graft i.block s⟩ = .next ⟨W, u.graft i.block t⟩ := by
  cases hb : s.busy i.block with
  | true =>
    rw [exec_busy hb] at h
    cases h
    exact exec_busy (by simpa using hb)
  | false =>
    cases hi : i.block <;> rw [hi] at hb
    · rw [exec_enc hi hb] at h
      cases h
      exact exec_enc hi (by simpa using hb)
    · rw [exec_dec hi hb] at h
      cases h
      exact exec_dec hi (by simpa using hb)

/-- A running step runs on its block's part of the state, whatever stands around it. -/
theorem runStep_graft {b : Block} {s t : Codec W} (u : Codec W) (h : runStep b s = .next ⟨W, t⟩) :
    runStep b (u.graft b s) = .next ⟨W, u.graft b t⟩ := by
  cases b with
  | enc =>
    obtain ⟨k, hk, e⟩ := encRunStep_next h
    cases e
    simp only [runStep, encRunStep, show (u.graft .enc s).enc = s.enc from rfl, hk,
      show (u.graft .enc s).ibRdata .encIbuf = s.ibRdata .encIbuf from u.graft_ibRdata s .enc]
    cases encWrite s.enc k <;> rfl
  | dec =>
    obtain ⟨k, hk, e⟩ := decRunStep_next h
    cases e
    simp only [runStep, decRunStep, show (u.graft .dec s).dec = s.dec from rfl, hk,
      show (u.graft .dec s).ibRdata .decIbuf = s.ibRdata .decIbuf from u.graft_ibRdata s .dec]
    cases (decNext s.dec (s.ibRdata .decIbuf (decReadAddr s.dec k)) k).2 <;> rfl

/-- The turn of a block reads and changes its own part of the state only (R10, R25). -/
theorem blockTurn_graft {b : Block} {s t : Codec W} (u : Codec W) (h : blockTurn b s = .next ⟨W, t⟩) :
    blockTurn b (u.graft b s) = .next ⟨W, u.graft b t⟩ := by
  obtain ⟨hb, h⟩ | ⟨hb, hc, h⟩ | ⟨hb, w, hc, h⟩ := blockTurn_next h
  · rw [blockTurn_busy (by simpa using hb), runStep_graft u h]
  · cases h
    exact blockTurn_idle (by simpa using hb) (by simpa using hc)
  · rw [blockTurn_ready (w := w) (by simpa using hb) (by simpa using hc), Codec.graft_setCmd]
    have hexec := exec_graft u h
    rwa [decodeCmd_block] at hexec

/-- The turns to come belong to no block's part. -/
theorem Codec.withTurns_eq_graft (s : Codec W) (b : Block) (ts us : List (Turn W)) :
    s.withTurns us = (s.withTurns us).graft b (s.withTurns ts) := by
  cases b <;> rfl

theorem core_run_succ {s t : State} (n : Nat) (h : step s = .next t) :
    Sys2Proof.core.run (n + 1) s = Sys2Proof.core.run n t :=
  run_succ (M := Sys2Proof.core) n h

/-- After the turns of both blocks, each part is what its block's turn alone makes of it. -/
theorem run_two_turns {b b' : Block} (hne : b' ≠ b) {s t t' : Codec W} {ts : List (Turn W)}
    (h : step ⟨W, s.withTurns (.block b :: ts)⟩ = .next ⟨W, t⟩)
    (h' : step ⟨W, s.withTurns (.block b' :: ts)⟩ = .next ⟨W, t'⟩) :
    Sys2Proof.core.run 2 ⟨W, s.withTurns (.block b :: .block b' :: ts)⟩ =
      .next ⟨W, ((s.withTurns ts).graft b t).graft b' t'⟩ := by
  rw [step_block rfl, Codec.withTurns_withTurns] at h h'
  have hfirst : step ⟨W, s.withTurns (.block b :: .block b' :: ts)⟩ =
      .next ⟨W, (s.withTurns (.block b' :: ts)).graft b t⟩ := by
    rw [step_block rfl, Codec.withTurns_withTurns]
    exact (congrArg (blockTurn b) (s.withTurns_eq_graft b ts _)).trans (blockTurn_graft _ h)
  have hrest : ((s.withTurns (.block b' :: ts)).graft b t).turns = .block b' :: ts := by cases b <;> rfl
  have hpart : ((s.withTurns (.block b' :: ts)).graft b t).withTurns ts =
      ((s.withTurns ts).graft b t).graft b' (s.withTurns ts) := by
    rw [Codec.graft_comm hne, ← s.withTurns_eq_graft b' ts ts]
    cases b <;> rfl
  have hsecond : step ⟨W, (s.withTurns (.block b' :: ts)).graft b t⟩ =
      .next ⟨W, ((s.withTurns ts).graft b t).graft b' t'⟩ := by
    rw [step_block hrest, hpart]
    exact blockTurn_graft _ h'
  rw [core_run_succ 1 hfirst, core_run_succ 0 hsecond]
  rfl

/-- Settles O45: each turn changes the part of its own block as it does alone (`run_two_turns`), and the two parts do
not overlap (`Codec.graft_comm`). -/
theorem blockTurnsCommute : Obligations.BlockTurnsCommute := by
  intro W s ts t t' henc hdec
  refine ⟨_, run_two_turns (by decide) henc hdec, ?_⟩
  rw [run_two_turns (by decide) hdec henc, Codec.graft_comm (by decide)]

/-! ### The ranges of the registers -/

theorem enclen_mono {a b : Nat} (h : a ≤ b) : enclen a ≤ enclen b := by
  rw [enclen_eq, enclen_eq]
  omega

/-- `RESULT` never exceeds the length it is filled from: it is 0 until the operation is done. -/
theorem Status.Inv.result_le {st : Status W} {req : Count W} (h : st.Inv) (hdone : st.state = .done → st.result = req) :
    st.result.toNat ≤ req.toNat := by
  by_cases hs : st.state = .done
  · rw [hdone hs]
  · simp [h.result_zero hs]

/-- Settles O50: the ranges are those of `EncRegs.Inv` and `DecRegs.Inv`, with the lengths bounded by those of the longest
text of the width. -/
theorem registersAreInTheirRanges : Obligations.RegistersAreInTheirRanges := by
  intro W s hinv
  have henc := hinv.enc
  have hdec := hinv.dec
  have hreqEnc : s.enc.req.toNat ≤ enclen (2 ^ W - 1) := by
    rw [henc.req_eq]
    exact enclen_mono (Nat.le_sub_one_of_lt s.enc.len.isLt)
  have hreqDec : s.dec.req.toNat ≤ dataLen (2 ^ W - 1) :=
    hdec.req_le.trans (dataLen_mono (Nat.le_sub_one_of_lt s.dec.k.isLt))
  obtain ⟨hbitsLo, hbitsHi⟩ := hdec.bitsrem_range
  have hacc : s.dec.acc.toNat < 2 ^ 7 := hdec.acc_lt.trans_le (Nat.pow_le_pow_right (by decide) (by omega))
  refine ⟨henc.held_le, henc.inIdx_le, henc.outIdx_le, hreqEnc, (henc.status.result_le henc.result_done).trans hreqEnc,
    henc.err_legal, hdec.k_le, Nat.le_of_lt_succ hacc, hbitsLo, hbitsHi, hdec.inIdx_le, hdec.outIdx_le, hreqDec,
    (hdec.status.result_le hdec.result_done).trans hreqDec, fun b => ?_⟩
  cases b with
  | enc => exact ⟨henc.status.err_none, henc.status.result_zero⟩
  | dec => exact ⟨hdec.status.err_none, hdec.status.result_zero⟩

/-! ### Commands and turns -/

/-- Settles O16: the accepted command writes every register of its block, from its own fields (`exec_enc`,
`exec_dec`). -/
theorem earlierCallsLeaveNoTrace : Obligations.EarlierCallsLeaveNoTrace := by
  intro W i s s' hb hb'
  cases hi : i.block <;> rw [hi] at hb hb'
  · exact ⟨_, _, exec_enc hi hb, exec_enc hi hb', fun _ => rfl, nofun⟩
  · exact ⟨_, _, exec_dec hi hb, exec_dec hi hb', nofun, fun _ => rfl⟩

/-- With no turn chosen, ENC has the turn if it has something to do, else DEC if it has. -/
theorem step_free {s : Codec W} (h : s.turns = []) :
    step ⟨W, s⟩ =
      if s.active .enc then blockTurn .enc s else if s.active .dec then blockTurn .dec s else .next ⟨W, s⟩ := by
  simp only [step, h]
  rfl

theorem Codec.active_of_busy {s : Codec W} {b : Block} (h : s.busy b = true) : s.active b = true := by
  simp [Codec.active, h]

theorem Codec.active_of_cmd {s : Codec W} {b : Block} {w : CmdWord W} (h : s.cmd b = some w) : s.active b = true := by
  simp [Codec.active, h]

theorem Codec.not_active {s : Codec W} {b : Block} (hb : s.busy b = false) (hc : s.cmd b = none) :
    s.active b = false := by
  simp [Codec.active, hb, hc]

/-- With no turn chosen, an ENC with something to do has the turn. -/
theorem step_free_enc {s : Codec W} (h : s.turns = []) (ha : s.active .enc = true) :
    step ⟨W, s⟩ = blockTurn .enc s := by
  rw [step_free h, if_pos ha]

/-- With no turn chosen and nothing for ENC to do, a DEC with something to do has the turn. -/
theorem step_free_dec {s : Codec W} (h : s.turns = []) (hb : s.busy .enc = false) (hc : s.encCmd = none)
    (ha : s.active .dec = true) : step ⟨W, s⟩ = blockTurn .dec s := by
  rw [step_free h, Codec.not_active hb hc, if_neg (by decide), if_pos ha]

/-- Settles O18: the step is the turn of the block that has it (`step_block`, `step_free_enc`, `step_free_dec`), and what a
turn does is said by `blockTurn_ready`, `blockTurn_idle` and `blockTurn_busy`. -/
theorem stepRunsTheDecodedCommand : Obligations.StepRunsTheDecodedCommand := by
  refine ⟨fun W s b ts hts => ?_, fun W s hts => ⟨fun w hb hc => ?_, fun hb => ?_, fun w hb hc hb' hc' => ?_,
    fun hb hc hb' => ?_, fun hb hc hb' hc' => ?_⟩⟩
  · rw [step_block hts]
    exact ⟨fun w hb hc => blockTurn_ready (by simpa using hb) (by simpa using hc),
      fun hb hc => blockTurn_idle (by simpa using hb) (by simpa using hc), fun hb => blockTurn_busy (by simpa using hb)⟩
  · rw [step_free_enc hts (Codec.active_of_cmd (w := w) hc), blockTurn_ready hb hc]
  · rw [step_free_enc hts (Codec.active_of_busy hb), blockTurn_busy hb]
  · rw [step_free_dec hts hb hc (Codec.active_of_cmd (w := w) hc'), blockTurn_ready hb' hc']
  · rw [step_free_dec hts hb hc (Codec.active_of_busy hb'), blockTurn_busy hb']
  · rw [step_free hts, Codec.not_active hb hc, Codec.not_active hb' hc']
    rfl

/-! ### Moves of the host -/

/-- A step in which the host has the turn. -/
theorem step_host {s : Codec W} {m : HostMove W} {ts : List (Turn W)} (h : s.turns = .host m :: ts) :
    step ⟨W, s⟩ = hostMove m (s.withTurns ts) := by
  simp [step, h, takeTurn]

theorem Codec.hostMayWrite_of_not_busy {s : Codec W} {sp : Space} (h : s.busy sp.block = false) :
    s.hostMayWrite sp = true := by
  simp [Codec.hostMayWrite, h]

theorem Codec.hostMayRead_of_input_or_not_busy {s : Codec W} {sp : Space}
    (h : sp.isInput = true ∨ s.busy sp.block = false) : s.hostMayRead sp = true := by
  simpa [Codec.hostMayRead] using h

theorem Codec.setCmd_cmd_other (s : Codec W) {b b' : Block} (c : Option (CmdWord W)) (h : b' ≠ b) :
    (s.setCmd b c).cmd b' = s.cmd b' := by
  cases b <;> cases b'
  case enc.enc | dec.dec => exact absurd rfl h
  case enc.dec | dec.enc => rfl

/-- The store of the host into a cell, as a move of the machine: its cell alone changes. -/
theorem Codec.writeCell_frame (s : Codec W) (sp : Space) (i : Nat) (v : Byte) (ts : List (Turn W)) :
    let t := (s.withTurns ts).writeCell sp i v
    t.readCell sp i = v ∧ (∀ sp' a, sp' ≠ sp ∨ a ≠ i → t.readCell sp' a = s.readCell sp' a) ∧
      t.enc = s.enc ∧ t.dec = s.dec ∧ t.encCmd = s.encCmd ∧ t.decCmd = s.decCmd ∧ t.turns = ts := by
  refine ⟨Codec.writeCell_readCell_same _ _ _ _, fun sp' a h => ?_, ?_⟩
  · rw [Codec.writeCell_readCell_other _ v h, Codec.withTurns_readCell]
  · simp [Codec.writeCell]

/-- Driving and releasing a port both replace the word on it (R27). -/
theorem step_drive_or_release {s : Codec W} {b : Block} {c : Option (CmdWord W)} {ts : List (Turn W)}
    (h : (∃ w, c = some w ∧ s.turns = .host (.drive b w) :: ts) ∨ (c = none ∧ s.turns = .host (.release b) :: ts)) :
    step ⟨W, s⟩ = .next ⟨W, (s.withTurns ts).setCmd b c⟩ := by
  obtain ⟨w, rfl, hts⟩ | ⟨rfl, hts⟩ := h <;> exact step_host hts

/-- Settles O47: outside the borrow no move is refused (`Codec.hostMayWrite_of_not_busy`,
`Codec.hostMayRead_of_input_or_not_busy`), and then a write and a copy are the store of one cell (`Codec.writeCell_frame`). -/
theorem hostMovesOutsideTheBorrow : Obligations.HostMovesOutsideTheBorrow := by
  refine ⟨fun W s sp i v ts hb hts => ⟨_, ?_, s.writeCell_frame sp i.toNat v ts⟩,
    fun W s src dst i j ts hsrc hdst hts => ⟨_, ?_, s.writeCell_frame dst j.toNat (s.readCell src i.toNat) ts⟩,
    fun W s sp i ts hsp hts => ?_, fun W s b c ts hport => ⟨_, step_drive_or_release hport, ?_⟩,
    fun W s b ts hts => step_host hts⟩
  · rw [step_host hts, hostMove, Codec.hostMayWrite_of_not_busy (by simpa using hb)]
    rfl
  · rw [step_host hts, hostMove, Codec.hostMayRead_of_input_or_not_busy (by simpa using hsrc),
      Codec.hostMayWrite_of_not_busy (by simpa using hdst), Codec.withTurns_readCell]
    rfl
  · rw [step_host hts, hostMove, Codec.hostMayRead_of_input_or_not_busy (by simpa using hsp)]
    rfl
  · exact ⟨Codec.setCmd_cmd_same _ _ _, fun b' hne => by rw [Codec.setCmd_cmd_other _ _ hne, Codec.withTurns_cmd],
      by simp, by simp, fun sp => by simp, by simp⟩

/-! ### The state after reset -/

/-- The reset status satisfies R20: `IDLE` with neither an error nor a result. -/
theorem Status.reset_inv (W : Nat) : (Status.reset W).Inv :=
  ⟨by simp [Status.reset], fun _ => rfl⟩

theorem EncRegs.reset_inv (input : List Byte) (out : Nat → Byte) : (EncRegs.reset W).Inv input out where
  status := Status.reset_inv W
  err_legal := .inl rfl
  req_eq := by simp [EncRegs.reset, enclen_eq]
  held_le := by simp [EncRegs.reset]
  inIdx_le := le_rfl
  outIdx_le := by simp [EncRegs.reset]
  result_done := nofun
  running := nofun

theorem DecRegs.reset_inv (input : List Byte) (out : Nat → Byte) : (DecRegs.reset W).Inv input out where
  status := Status.reset_inv W
  err_legal := nofun
  k_le := le_rfl
  bitsrem_range := by simp [DecRegs.reset]
  acc_lt := by simp [DecRegs.reset]
  inIdx_le := le_rfl
  outIdx_le := by simp [DecRegs.reset]
  req_le := by simp [DecRegs.reset]
  result_done := nofun
  scanning := nofun
  running := nofun

/-- Settles O40: the reset values are those of the table of R32, field by field. -/
theorem registersAfterReset : Obligations.RegistersAfterReset :=
  fun _ => ⟨rfl, rfl⟩

/-- The pair of blocks after reset has the invariant, at every width. -/
theorem Codec.reset_inv (W : Nat) : (Codec.reset W).Inv :=
  ⟨EncRegs.reset_inv _ _, DecRegs.reset_inv _ _, Codec.reset_wf W⟩

/-- Settles O48: the registers after reset (`EncRegs.reset_inv`, `DecRegs.reset_inv`) and the empty spaces
(`Codec.reset_wf`) have the invariant at every width. -/
theorem invariantAtReset : Obligations.InvariantAtReset :=
  have hreset : ∀ W : Nat, 1 ≤ W → (State.resetAt W).Inv := fun W hW => ⟨hW, Codec.reset_inv W⟩
  ⟨hreset _ (by decide), hreset⟩

end Sys2Proof.Machine

/-! The buffers: one cell stored and read back, and the host moves that the borrow forbids (spec/20_memory.md). -/

namespace Sys2Proof.Machine

variable {W : Nat}

/-! ### One cell of a space -/

/-- A store at an index of its space keeps the canonical form of every space (R41). -/
theorem Codec.writeCell_wf (s : Codec W) (sp : Space) (i : Idx W) (v : Byte) {sp' : Space}
    (h : (s.buf sp').wf W = true) : ((s.writeCell sp i.toNat v).buf sp').wf W = true := by
  by_cases hs : sp' = sp
  · subst hs
    rw [Codec.writeCell, Codec.setBuf_buf_same]
    exact Memory.wf_set v i.isLt h
  · rwa [Codec.writeCell, Codec.setBuf_buf_other s _ hs]

/-- Settles O42: reads after a store are `Codec.writeCell_readCell_same` and `Codec.writeCell_readCell_other`, and the canonical
form is `Codec.writeCell_wf`. -/
theorem cellsReadBackWhatWasStored : Obligations.CellsReadBackWhatWasStored := fun _ s sp i v =>
  ⟨s.writeCell_readCell_same sp i.toNat v, fun _ _ => s.writeCell_readCell_other v, fun _ => s.writeCell_wf sp i v⟩

/-! ### The borrow -/

theorem Codec.hostMayWrite_of_busy {s : Codec W} {sp : Space} (h : s.busy sp.block = true) :
    s.hostMayWrite sp = false := by
  simp [Codec.hostMayWrite, h]

theorem Codec.hostMayRead_of_output_of_busy {s : Codec W} {sp : Space} (hout : sp.isInput = false)
    (h : s.busy sp.block = true) : s.hostMayRead sp = false := by
  simp [Codec.hostMayRead, hout, h]

/-- Settles O46: a `BUSY` block's buffers may not be stored into (`Codec.hostMayWrite_of_busy`), nor its output buffer be read
(`Codec.hostMayRead_of_output_of_busy`); a copy asks first whether the cell it reads from may be read. -/
theorem borrowedBuffersAreRefused : Obligations.BorrowedBuffersAreRefused := by
  intro W s sp sp' i j v ts hbusy
  refine ⟨fun hts => ?write, fun hout hts => ?read, fun hout hts => ?copyOut, fun hsrc hts => ?copyIn⟩
  case write =>
    rw [step_host hts, hostMove, Codec.hostMayWrite_of_busy (by simpa using hbusy)]
    rfl
  case read =>
    rw [step_host hts, hostMove, Codec.hostMayRead_of_output_of_busy hout (by simpa using hbusy)]
    rfl
  case copyOut =>
    rw [step_host hts, hostMove, Codec.hostMayRead_of_output_of_busy hout (by simpa using hbusy)]
    rfl
  case copyIn =>
    rw [step_host hts, hostMove, Codec.hostMayRead_of_input_or_not_busy (by simpa using hsrc),
      Codec.hostMayWrite_of_busy (by simpa using hbusy)]
    rfl

end Sys2Proof.Machine

/-! The encodings: the command word both ways, script lines, the alphabet and its classifier, the status port, `WAIT`, and the
encoder's loop as the regrouping of the bit stream (spec/30_encoding.md, R66). -/

namespace Sys2Proof

/-! ### The command word -/

/-- A command is its block, its `op` bit and its two fields (R72). -/
theorem Instr.eq_of_fields {i j : Instr} (hblock : i.block = j.block) (hop : i.op = j.op) (hlen : i.len = j.len)
    (hcap : i.cap = j.cap) : i = j := by
  cases i <;> cases j
  case enclen.enclen | encode.encode | datalen.datalen | decode.decode => exact congrArg₂ _ hlen hcap
  all_goals simp [Instr.block, Instr.op] at hblock hop

theorem decodeCmd_wellFormed {W : Nat} (b : Block) (w : CmdWord W) : (decodeCmd b w).wellFormed W = true := by
  obtain ⟨-, -, hlen, hcap⟩ := decodeCmd_fields b w
  rw [Instr.wellFormed_iff, hlen, hcap]
  exact ⟨(cmdLen w).isLt, (cmdCap w).isLt⟩

/-- The fields of a decoded command make up the word it was decoded from. -/
theorem toNat_of_decodeCmd {W : Nat} (b : Block) (w : CmdWord W) :
    w.toNat = (decodeCmd b w).op.toNat * 2 ^ (2 * W) + (decodeCmd b w).len * 2 ^ W + (decodeCmd b w).cap := by
  obtain ⟨-, hop, hlen, hcap⟩ := decodeCmd_fields b w
  rw [hop, hlen, hcap, ← cmdWord_toNat]

theorem encodeCmd_decodeCmd {W : Nat} (b : Block) (w : CmdWord W) : encodeCmd W (decodeCmd b w) = w :=
  BitVec.eq_of_toNat_eq (by rw [encodeCmd_toNat (decodeCmd_wellFormed b w), ← toNat_of_decodeCmd])

theorem decodeCmd_encodeCmd {W : Nat} {i : Instr} (h : i.wellFormed W = true) :
    decodeCmd i.block (encodeCmd W i) = i := by
  obtain ⟨hlenOk, hcapOk⟩ := Instr.wellFormed_iff.1 h
  obtain ⟨hblock, hop, hlen, hcap⟩ := decodeCmd_fields i.block (encodeCmd W i)
  obtain ⟨hopPack, hlenPack, hcapPack⟩ := packCmd_fields i.op (BitVec.ofNat W i.len) (BitVec.ofNat W i.cap)
  refine Instr.eq_of_fields hblock (hop.trans hopPack) ?_ ?_
  · rw [hlen, encodeCmd, hlenPack, BitVec.toNat_ofNat, Nat.mod_eq_of_lt hlenOk]
  · rw [hcap, encodeCmd, hcapPack, BitVec.toNat_ofNat, Nat.mod_eq_of_lt hcapOk]

/-- Settles O4: the two round trips are `decodeCmd_encodeCmd` and `encodeCmd_decodeCmd`. -/
theorem decodeAndEncodeAgree : Obligations.DecodeAndEncodeAgree :=
  ⟨fun _ _ => decodeCmd_encodeCmd, fun _ b w => ⟨decodeCmd_wellFormed b w, encodeCmd_decodeCmd b w⟩⟩

/-- Settles O1: the block is the port's (`decodeCmd_block`), a decoded command is well-formed, and its fields make up the
word. -/
theorem commandWordFields : Obligations.CommandWordFields := fun _ b w =>
  have ⟨hlen, hcap⟩ := Instr.wellFormed_iff.1 (decodeCmd_wellFormed b w)
  ⟨Machine.decodeCmd_block b w, hlen, hcap, toNat_of_decodeCmd b w⟩

theorem cmdOp_eq_false_iff {W : Nat} {w : CmdWord W} : cmdOp w = false ↔ w.toNat < 2 ^ (2 * W) := by
  rw [← Bool.toNat_eq_zero, cmdOp_toNat, Nat.div_eq_zero_iff_lt (by positivity)]

/-- The commands of a word whose `op` bit is 0 (R72). -/
theorem decodeCmd_of_op_false {W : Nat} {w : CmdWord W} (h : cmdOp w = false) :
    decodeCmd .enc w = .enclen (cmdLen w).toNat (cmdCap w).toNat ∧
      decodeCmd .dec w = .datalen (cmdLen w).toNat (cmdCap w).toNat := by
  simp [decodeCmd, h]

/-- The commands of a word whose `op` bit is 1 (R72). -/
theorem decodeCmd_of_op_true {W : Nat} {w : CmdWord W} (h : cmdOp w = true) :
    decodeCmd .enc w = .encode (cmdLen w).toNat (cmdCap w).toNat ∧
      decodeCmd .dec w = .decode (cmdLen w).toNat (cmdCap w).toNat := by
  simp [decodeCmd, h]

/-- Settles O2: the `op` bit of a word is 0 exactly below `2^(2W)` (`cmdOp_eq_false_iff`), and with the port it names the
operation. -/
theorem opcodeMapOfBothPorts : Obligations.OpcodeMapOfBothPorts := by
  intro W w
  constructor
  · intro hlow
    obtain ⟨henc, hdec⟩ := decodeCmd_of_op_false (cmdOp_eq_false_iff.2 hlow)
    exact ⟨⟨_, _, henc⟩, ⟨_, _, hdec⟩⟩
  · intro hhigh
    have hop : cmdOp w ≠ false := fun h => hhigh.not_gt (cmdOp_eq_false_iff.1 h)
    obtain ⟨henc, hdec⟩ := decodeCmd_of_op_true (Bool.eq_true_of_not_eq_false hop)
    exact ⟨⟨_, _, henc⟩, ⟨_, _, hdec⟩⟩

/-- Settles O3, one printed word after the other. -/
theorem printedCommandWordsDecode : Obligations.PrintedCommandWordsDecode :=
  ⟨by decide, by decide, by decide, by decide⟩

/-! ### Script lines -/

theorem CommandLine.wellFormed_iff {W : Nat} {c : CommandLine} :
    c.wellFormed W = true ↔
      c.mnemonic.block = c.block ∧ c.len < 2 ^ W ∧ c.cap.isSome = c.mnemonic.usesCap ∧ c.cap.getD 0 < 2 ^ W := by
  simp [CommandLine.wellFormed, CommandLine.blockOk, CommandLine.lenOk, CommandLine.capStated, CommandLine.capOk,
    and_assoc]

/-- The command of a well-formed line, by its fields: the `op` bit is 1 exactly for the operations that use `cap` (R72). -/
theorem assemble_of_wellFormed {W : Nat} {c : CommandLine} (h : c.wellFormed W = true) :
    ∃ i, assemble W c = .ok i ∧ i.block = c.mnemonic.block ∧ i.op = c.mnemonic.usesCap ∧ i.len = c.len ∧
      i.cap = c.cap.getD 0 := by
  rw [assemble, if_pos h]
  cases c.mnemonic <;> exact ⟨_, rfl, rfl, rfl, rfl, rfl⟩

/-- Settles O5: the command is that of `assemble_of_wellFormed`, whose fields fit because the line's do
(`CommandLine.wellFormed_iff`). -/
theorem scriptLinesBecomeCommands : Obligations.ScriptLinesBecomeCommands := by
  intro W c
  constructor
  · intro hwf
    obtain ⟨hblockOk, hlenOk, -, hcapOk⟩ := CommandLine.wellFormed_iff.1 hwf
    obtain ⟨i, hi, hblock, hop, hlen, hcap⟩ := assemble_of_wellFormed hwf
    exact ⟨i, hi, Instr.wellFormed_iff.2 ⟨hlen ▸ hlenOk, hcap ▸ hcapOk⟩, hblock.trans hblockOk, hop, hlen, hcap⟩
  · intro hwf
    rw [assemble, if_neg (by simp [hwf])]

end Sys2Proof

namespace Sys2Proof.Machine

/-! ### The alphabet and the classifier -/

/-- The closed form of the symbol lookup (R61), over its 32 values. -/
theorem alpha_toNat : ∀ v : SymVal, (alpha v).toNat = if v.toNat ≤ 25 then 0x41 + v.toNat else 0x32 + (v.toNat - 26) := by
  decide

/-- Settles O6: the closed form is `alpha_toNat`, and the 32 characters are compared one by one. -/
theorem alphaIsTheAlphabet : Obligations.AlphaIsTheAlphabet := by
  refine ⟨fun v => ⟨fun hletter => ?_, fun hdigit => ?_⟩, by decide⟩
  · rw [alpha_toNat, if_pos hletter]
  · rw [alpha_toNat, if_neg (by omega)]

theorem classify_of_letter {c : Byte} (h : 0x41 ≤ c.toNat ∧ c.toNat ≤ 0x5A) :
    classify c = .sym (BitVec.ofNat 5 (c.toNat - 0x41)) :=
  if_pos h

theorem classify_of_digit {c : Byte} (h : 0x32 ≤ c.toNat ∧ c.toNat ≤ 0x37) :
    classify c = .sym (BitVec.ofNat 5 (c.toNat - 0x32 + 26)) := by
  rw [classify, if_neg (by omega), if_pos h]

theorem classify_padChar : classify padChar = .pad := rfl

theorem classify_of_other {c : Byte} (hletter : ¬ (0x41 ≤ c.toNat ∧ c.toNat ≤ 0x5A))
    (hdigit : ¬ (0x32 ≤ c.toNat ∧ c.toNat ≤ 0x37)) (hpad : c ≠ padChar) : classify c = .invalid := by
  rw [classify, if_neg hletter, if_neg hdigit, if_neg hpad]

/-- The reverse lookup inverts the lookup (R62): letters stand for 0 to 25, digits for 26 to 31. -/
theorem classify_alpha (v : SymVal) : classify (alpha v) = .sym v := by
  have hv := v.isLt
  have hcode := alpha_toNat v
  split at hcode
  · rw [classify_of_letter (by omega), hcode, Nat.add_sub_cancel_left, BitVec.ofNat_toNat, BitVec.setWidth_eq]
  · rw [classify_of_digit (by omega), hcode, Nat.add_sub_cancel_left, Nat.sub_add_cancel (by omega), BitVec.ofNat_toNat,
      BitVec.setWidth_eq]

/-- Settles O7: `classify` is a left inverse of `alpha` (`classify_alpha`), so `alpha` is injective, and it tells every
symbol from the padding character. -/
theorem classifyInvertsAlpha : Obligations.ClassifyInvertsAlpha := by
  refine ⟨fun v w h => ?_, fun v => ⟨fun hpad => ?_, classify_alpha v⟩⟩
  · have hsym : CharClass.sym v = .sym w := by rw [← classify_alpha, ← classify_alpha, h]
    exact CharClass.sym.inj hsym
  · have hclass : classify padChar = .sym v := by rw [← classify_alpha, hpad]; rfl
    exact CharClass.noConfusion (classify_padChar.symm.trans hclass)

/-- Settles O8: one lemma per row of R63; the `INVALID` code units are counted one by one. -/
theorem classifierTable : Obligations.ClassifierTable := by
  refine ⟨fun c => ⟨fun h => ⟨_, classify_of_letter h, ?_⟩, fun h => ⟨_, classify_of_digit h, ?_⟩, fun h => ?_,
    fun hletter hdigit hpad => classify_of_other hletter hdigit fun h => hpad (by rw [h]; rfl)⟩, by decide +kernel⟩
  · exact Nat.mod_eq_of_lt (by omega)
  · exact Nat.mod_eq_of_lt (by omega)
  · rw [show c = padChar from BitVec.eq_of_toNat_eq h, classify_padChar]

/-! ### The status port and `WAIT` -/

/-- `cmd_ready` is 1 exactly when the block is not `BUSY` (R27). -/
theorem Codec.cmdReady_iff {W : Nat} (s : Codec W) (b : Block) : s.cmdReady b = true ↔ (s.status b).state ≠ .busy := by
  rw [Codec.cmdReady, Bool.not_eq_true', Codec.not_busy_iff]

/-- Settles O9: the port shows the codes of `STATE` and `ERR` (R73, R74), value by value. -/
theorem statusPortCodes : Obligations.StatusPortCodes := by
  intro W s b
  have hstate {v : BlockState} (h : (s.status b).state = v) : (s.statusPort b).state = v.code := congrArg BlockState.code h
  have herr {v : Err} (h : (s.status b).err = v) : (s.statusPort b).err = v.code := congrArg Err.code h
  exact ⟨hstate, hstate, hstate, hstate, herr, herr, herr, herr, rfl, s.cmdReady_iff b⟩

/-- A step in which the host waits for a block that is not `BUSY`: the wait is over. -/
theorem step_wait_ready {W : Nat} {s : Codec W} {b : Block} {ts : List (Turn W)} (h : s.turns = .wait b :: ts)
    (hb : s.busy b = false) : step ⟨W, s⟩ = .next ⟨W, s.withTurns ts⟩ := by
  simp [step, h, takeTurn, hb]

/-- A step in which the host waits for a `BUSY` block: that block runs. -/
theorem step_wait_busy {W : Nat} {s : Codec W} {b : Block} {ts : List (Turn W)} (h : s.turns = .wait b :: ts)
    (hb : s.busy b = true) : step ⟨W, s⟩ = runStep b s := by
  simp [step, h, takeTurn, hb, blockTurn_busy hb]

/-- Settles O53: the two cases of a wait are `step_wait_ready` and `step_wait_busy`, and a running step leaves the turns
alone (`runStep_turns`). -/
theorem waitLastsWhileTheBlockIsBusy : Obligations.WaitLastsWhileTheBlockIsBusy := fun _ _ _ _ hts =>
  ⟨step_wait_ready hts, fun hb =>
    ⟨step_wait_busy hts hb, fun _ hstep => runStep_turns ((step_wait_busy hts hb).symm.trans hstep)⟩⟩

/-! ### The encoder's loop -/

/-- An accumulator whose low `n + m` bits are stream bits has the older `n` of them on top of the younger `m`. -/
theorem mod_eq_bitsVal_split {bit : Nat → Bool} {acc p n m : Nat} (h : acc % 2 ^ (n + m) = bitsVal bit p (n + m)) :
    acc / 2 ^ m % 2 ^ n = bitsVal bit p n ∧ acc % 2 ^ m = bitsVal bit (p + n) m := by
  have hlt := bitsVal_lt bit (p + n) m
  rw [bitsVal_add] at h
  constructor
  · rw [← Nat.mod_mul_right_div_self, ← pow_add, Nat.add_comm m n, h, Nat.mul_comm, Nat.mul_add_div (by positivity),
      Nat.div_eq_of_lt hlt, Nat.add_zero]
  · rw [← Nat.mod_mod_of_dvd acc (pow_dvd_pow 2 (Nat.le_add_left m n)), h, Nat.mul_comm, Nat.mul_add_mod,
      Nat.mod_eq_of_lt hlt]

/-- What the loop of R91 keeps: after `o` symbols, the low `held` bits of `acc` are the stream bits not yet emitted. -/
def EncHolds (input : List Byte) (o acc held : Nat) : Prop :=
  acc % 2 ^ held = bitsVal (byteBit input) (5 * o) held

/-- The `n` code units of the stream from symbol `o` on (R66). -/
def symbolsFrom (input : List Byte) (o n : Nat) : List Byte :=
  (List.range' o n).map fun j => alpha (streamSymbol input j)

theorem symbolsFrom_succ (input : List Byte) (o n : Nat) :
    symbolsFrom input o (n + 1) = alpha (streamSymbol input o) :: symbolsFrom input (o + 1) n := by
  rw [symbolsFrom, List.range'_succ, List.map_cons, symbolsFrom]

theorem symbolsFrom_add (input : List Byte) (o n m : Nat) :
    symbolsFrom input o (n + m) = symbolsFrom input o n ++ symbolsFrom input (o + n) m := by
  rw [symbolsFrom, ← List.range'_append_1, List.map_append, symbolsFrom, symbolsFrom]

/-- A number whose low five bits are those of the stream from symbol `o` on is that symbol. -/
theorem ofNat_eq_streamSymbol {input : List Byte} {o x : Nat} (h : x % 2 ^ 5 = bitsVal (byteBit input) (5 * o) 5) :
    BitVec.ofNat 5 (x &&& 0x1F) = streamSymbol input o := by
  rw [streamSymbol, ← h, show (0x1F : Nat) = 2 ^ 5 - 1 from rfl, Nat.and_two_pow_sub_one_eq_mod]

/-- The byte read next goes below the bits held. -/
theorem EncHolds.push {input : List Byte} {o acc held i : Nat} {b : Byte} (h : EncHolds input o acc held)
    (hpos : 8 * i = 5 * o + held) (hb : input.getD i 0 = b) : EncHolds input o (acc <<< 8 ||| b.toNat) (held + 8) := by
  have hacc : acc <<< 8 ||| b.toNat = 2 ^ 8 * acc + b.toNat := by
    rw [← Nat.shiftLeft_add_eq_or_of_lt b.isLt, Nat.shiftLeft_eq, Nat.mul_comm]
  have hbyte : bitsVal (byteBit input) (5 * o + held) 8 = b.toNat := by rw [← hpos, byteBit_byte, hb]
  unfold EncHolds at *
  rw [bitsVal_add, hbyte, ← h, hacc, Nat.add_comm held 8, pow_add, Nat.mod_mul, Nat.mul_add_mod,
    Nat.mod_eq_of_lt b.isLt, Nat.mul_add_div (by positivity), Nat.div_eq_of_lt b.isLt, Nat.add_zero, Nat.mul_comm,
    Nat.add_comm]

/-- With five bits held, the oldest five are the next symbol, and the others stay held. -/
theorem EncHolds.emit {input : List Byte} {o acc held : Nat} (h : EncHolds input o acc (5 + held)) :
    BitVec.ofNat 5 (acc >>> held &&& 0x1F) = streamSymbol input o ∧ EncHolds input (o + 1) acc held := by
  obtain ⟨htop, hlow⟩ := mod_eq_bitsVal_split h
  exact ⟨ofNat_eq_streamSymbol (by rw [Nat.shiftRight_eq_div_pow, htop]), hlow⟩

/-- At the end of the input the bits held, followed by zeros, are the last symbol. -/
theorem EncHolds.flush {input : List Byte} {o acc held : Nat} (h : EncHolds input o acc held) (hheld : held ≤ 5)
    (hend : 8 * input.length = 5 * o + held) :
    BitVec.ofNat 5 (acc <<< (5 - held) &&& 0x1F) = streamSymbol input o := by
  have hzeros : bitsVal (byteBit input) (5 * o) (held + (5 - held)) = acc % 2 ^ held * 2 ^ (5 - held) := by
    rw [bitsVal_add, ← hend, byteBit_end, Nat.add_zero, h]
  rw [Nat.add_sub_cancel' hheld] at hzeros
  refine ofNat_eq_streamSymbol ?_
  rw [hzeros, Nat.shiftLeft_eq, ← Nat.mul_mod_mul_right, ← pow_add, Nat.add_sub_cancel' hheld]

/-- The inner loop emits a symbol for every five bits held, and keeps the rest held. -/
theorem encDrain_eq {input : List Byte} {acc fuel held o : Nat} (hfuel : held ≤ fuel) (h : EncHolds input o acc held) :
    encDrain acc fuel held = (symbolsFrom input o (held / 5), held % 5) ∧
      EncHolds input (o + held / 5) acc (held % 5) := by
  induction fuel generalizing held o with
  | zero =>
    obtain rfl : held = 0 := Nat.le_zero.1 hfuel
    exact ⟨rfl, h⟩
  | succ fuel ih =>
    by_cases h5 : 5 ≤ held
    · obtain ⟨n, rfl⟩ := Nat.exists_eq_add_of_le h5
      obtain ⟨hsym, hnext⟩ := h.emit
      obtain ⟨hdrain, hrest⟩ := ih (by omega) hnext
      rw [show (5 + n) / 5 = n / 5 + 1 by omega, Nat.add_mod_left, symbolsFrom_succ]
      constructor
      · simp only [encDrain, if_pos h5, Nat.add_sub_cancel_left, hdrain, hsym]
      · rwa [show o + (n / 5 + 1) = o + 1 + n / 5 by omega]
    · rw [Nat.div_eq_of_lt (by omega), Nat.mod_eq_of_lt (by omega)]
      exact ⟨by rw [encDrain, if_neg h5]; rfl, h⟩

/-- The outer loop, with the bytes of `pre` read and `o` symbols emitted, emits the `n` symbols that are left. -/
theorem encLoop_eq {bs pre : List Byte} {acc held o n : Nat} (hheld : held < 5) (hpos : 8 * pre.length = 5 * o + held)
    (hn : o + n = enclen (pre ++ bs).length) (h : EncHolds (pre ++ bs) o acc held) :
    encLoop acc held bs = symbolsFrom (pre ++ bs) o n := by
  induction bs generalizing pre acc held o n with
  | nil =>
    rw [List.append_nil] at *
    rw [enclen_eq] at hn
    by_cases h0 : 0 < held
    · obtain rfl : n = 1 := by omega
      rw [encLoop, if_pos h0, h.flush hheld.le hpos, symbolsFrom_succ]
      rfl
    · obtain rfl : n = 0 := by omega
      rw [encLoop, if_neg h0]
      rfl
  | cons b bs ih =>
    have hpush := h.push hpos (b := b) (by simp)
    obtain ⟨hdrain, hrest⟩ := encDrain_eq le_rfl hpush
    rw [enclen_eq, List.length_append, List.length_cons] at hn
    obtain ⟨m, rfl⟩ : ∃ m, n = (held + 8) / 5 + m := Nat.exists_eq_add_of_le (by omega)
    have happ : pre ++ b :: bs = (pre ++ [b]) ++ bs := by simp
    rw [happ] at hrest hdrain ⊢
    rw [encLoop, symbolsFrom_add]
    simp only [hdrain]
    rw [ih (n := m) (by omega) (by simp; omega) (by rw [enclen_eq]; simp; omega) hrest]

/-- Settles O32: the loop starts with nothing read, held or emitted (`encLoop_eq`). -/
theorem encoderLoopIsTheBitStream : Obligations.EncoderLoopIsTheBitStream := by
  intro bs
  rw [List.range_eq_range']
  exact encLoop_eq (pre := []) (by omega) rfl (Nat.zero_add _) rfl

end Sys2Proof.Machine

/-! The length calculators, ENCLEN and DATALEN (spec/40_length_calculators.md), and the SCAN pass that DATALEN shares with
DECODE. -/

namespace Sys2Proof.Machine

variable {W : Nat}

/-! ### The two length formulas -/

/-- `enclen(n)` is the least number of 5-bit symbols that hold `8n` bits (R81). -/
theorem enclen_ceil (n : Nat) : 8 * n ≤ 5 * enclen n ∧ 5 * enclen n < 8 * n + 5 := by
  rw [enclen_eq]
  omega

/-- Five bytes make eight symbols, and the bytes left over make their own (R81). -/
theorem enclen_residue (n : Nat) : enclen n = 8 * (n / 5) + [0, 2, 4, 5, 7].getD (n % 5) 0 := by
  have htable : ∀ r < 5, (8 * r + 4) / 5 = [0, 2, 4, 5, 7].getD r 0 := by decide
  rw [← htable _ (Nat.mod_lt n (by decide)), enclen_eq]
  omega

/-- Eight symbols make five bytes, and the symbols left over make their own (R84). -/
theorem dataLen_residue (k : Nat) : dataLen k = 5 * (k / 8) + [0, 0, 1, 1, 2, 3, 3, 4].getD (k % 8) 0 := by
  have htable : ∀ r < 8, 5 * r / 8 = [0, 0, 1, 1, 2, 3, 3, 4].getD r 0 := by decide
  rw [← htable _ (Nat.mod_lt k (by decide)), dataLen]
  omega

theorem dataLen_enclen (n : Nat) : dataLen (enclen n) = n := by
  have hceil := enclen_ceil n
  rw [dataLen]
  omega

theorem dataLen_le (k : Nat) : dataLen k ≤ k := by
  rw [dataLen]
  omega

theorem dataLen_lt {k : Nat} (h : 0 < k) : dataLen k < k := by
  rw [dataLen]
  omega

/-- Settles O10: the ceiling is `enclen_ceil`, and the two closed forms are `enclen_eq` and `enclen_residue`. -/
theorem enclenIsTheCeiling : Obligations.EnclenIsTheCeiling := by
  intro n
  obtain ⟨hlower, hupper⟩ := enclen_ceil n
  exact ⟨hlower, hupper, enclen_eq n, enclen_residue n, rfl⟩

/-- Settles O11: `enclen` grows with the length (`enclen_mono`) and is bounded by its ceiling (`enclen_ceil`) at the longest
length of the width; `floor(5k/8)` never exceeds `k` (`dataLen_le`, `dataLen_lt`). -/
theorem lengthsNeverWrap : Obligations.LengthsNeverWrap := by
  intro W n
  have hn := n.isLt
  have hlen := (enclen_ceil n.toNat).2
  have hlongest := (enclen_ceil (2 ^ W - 1)).2
  have hpow1 : 2 ^ (W + 1) = 2 * 2 ^ W := pow_succ' 2 W
  have hpow3 : 2 ^ (W + 3) = 8 * 2 ^ W := by rw [pow_add]; omega
  exact ⟨by omega, by omega, enclen_mono (Nat.le_sub_one_of_lt hn), by omega, by omega, (dataLen_le _).trans_lt hn,
    dataLen_lt⟩

/-- Settles O12: the two formulas are inverse (`dataLen_enclen`), and the data length of a text depends on the number of its
symbols alone; the residue form is `dataLen_residue`. -/
theorem dataLenUndoesEnclen : Obligations.DataLenUndoesEnclen := by
  refine ⟨dataLen_enclen, fun n cs hcount => ?_, dataLen_residue⟩
  rw [dataLenOf, hcount, dataLen_enclen]

/-! ### Commands whose fields fit the width -/

/-- A command with `W`-bit fields, offered to a ready ENC, is accepted with these fields (R92). -/
theorem exec_enc_fields {i : Instr} {s : Codec W} {len cap : Idx W} (hb : i.block = .enc) (h : s.busy .enc = false)
    (hlen : i.len = len.toNat) (hcap : i.cap = cap.toNat) :
    exec i ⟨W, s⟩ = .next ⟨W, s.withEnc (encStart (encOpOf i) len cap)⟩ := by
  rw [exec_enc hb h, hlen, hcap]
  simp

/-- A command with `W`-bit fields, offered to a ready DEC, is accepted with these fields (R112). -/
theorem exec_dec_fields {i : Instr} {s : Codec W} {len cap : Idx W} (hb : i.block = .dec) (h : s.busy .dec = false)
    (hlen : i.len = len.toNat) (hcap : i.cap = cap.toNat) :
    exec i ⟨W, s⟩ = .next ⟨W, s.withDec (decStart (decOpOf i) len cap)⟩ := by
  rw [exec_dec hb h, hlen, hcap]
  simp

/-- Settles O13: the accepting step (`exec_enc_fields`) writes all of ENC's registers, `REQ` and `RESULT` among them without
loss (`enclen_toNat`). -/
theorem enclenCompletes : Obligations.EnclenCompletes := fun _ _ len cap hb =>
  ⟨encStart .enclen len cap, exec_enc_fields rfl hb rfl rfl, rfl, rfl, rfl, enclen_toNat len, enclen_toNat len, rfl, rfl, rfl,
    rfl, rfl, rfl⟩

/-! ### The SCAN pass -/

/-- The registers of DEC after SCAN steps over `text`, none of which raised (R113): the code units passed are in `IN_IDX`, the
symbols among them in `K`. -/
def decScanned (op : DecOp) (len cap : Idx W) (text : List Byte) : DecRegs W :=
  { decStart op len cap with k := BitVec.ofNat W (symCount text), inIdx := BitVec.ofNat W text.length }

/-- Nothing is scanned yet in the accepting step (R112). -/
theorem decScanned_nil (op : DecOp) (len cap : Idx W) : decScanned op len cap [] = decStart op len cap := rfl

/-- A valid code unit more is scanned without a raise: a symbol counts, a `=` does not. -/
theorem decScan_decScanned {op : DecOp} {len cap : Idx W} {text : List Byte} {c : Byte} (h : classify c ≠ .invalid) :
    decScan (decScanned op len cap text) c = decScanned op len cap (text ++ [c]) := by
  have hcount : symCount (text ++ [c]) = symCount text + symCount [c] := by simp [symCount, symValues_append]
  cases hc : classify c with
  | invalid => exact absurd hc h
  | pad => simp [decScan, hc, decScanned, hcount, symCount_pad hc, BitVec.ofNat_add]
  | sym v => simp [decScan, hc, decScanned, hcount, symCount_sym hc, BitVec.ofNat_add]

/-- An `INVALID` code unit raises, and no other register changes (R113, R135). -/
theorem decScan_of_invalid {r : DecRegs W} {c : Byte} (h : classify c = .invalid) :
    decScan r c = { r with status := raise .invalidCharacter } := by
  simp [decScan, h]

/-- `IN_IDX` counts the code units scanned exactly, as long as there are no more than `LEN`. -/
theorem decScanned_inIdx (op : DecOp) (cap : Idx W) {len : Idx W} {text : List Byte} (h : text.length ≤ len.toNat) :
    (decScanned op len cap text).inIdx.toNat = text.length :=
  Nat.mod_eq_of_lt (h.trans_lt len.isLt)

/-- `K` counts the symbols scanned exactly. -/
theorem decScanned_k (op : DecOp) (cap : Idx W) {len : Idx W} {text : List Byte} (h : text.length ≤ len.toNat) :
    (decScanned op len cap text).k.toNat = symCount text :=
  Nat.mod_eq_of_lt (((symCount_le text).trans h).trans_lt len.isLt)

theorem decStepAt_of_lt {len k : Nat} (h : k < len) : decStepAt len k = .scan := if_pos h

theorem decStepAt_self (len : Nat) : decStepAt len len = .scanEnd := by
  rw [decStepAt, if_neg (Nat.lt_irrefl len), if_pos rfl]

/-- The step selected is the one of R126: a SCAN while code units are left, and then SCAN_END. -/
theorem decSelect_decScanned (op : DecOp) (cap : Idx W) {len : Idx W} {text : List Byte} (h : text.length ≤ len.toNat) :
    decSelect (decScanned op len cap text) = some (decStepAt len.toNat text.length) := by
  have hidx := decScanned_inIdx op cap h
  obtain hlt | heq := h.lt_or_eq
  · rw [decStepAt_of_lt hlt]
    exact decSelect_of ⟨rfl, hidx.trans_lt hlt⟩
  · rw [heq, decStepAt_self]
    exact decSelect_of ⟨rfl, BitVec.eq_of_toNat_eq (hidx.trans heq)⟩

@[simp] theorem Codec.withDec_withDec (s : Codec W) (r r' : DecRegs W) : (s.withDec r).withDec r' = s.withDec r' := rfl

/-- DEC with the registers of an unfinished SCAN pass is `BUSY`. -/
theorem busy_decScanned (s : Codec W) (op : DecOp) (len cap : Idx W) (text : List Byte) :
    (s.withDec (decScanned op len cap text)).busy .dec = true := rfl

/-- A running step that is a SCAN changes DEC's registers and nothing else. -/
theorem runStep_scan {s : Codec W} (h : decSelect s.dec = some .scan) :
    runStep .dec s = .next ⟨W, s.withDec (decScan s.dec (s.readCell .decIbuf s.dec.inIdx.toNat))⟩ := by
  rw [runStep, decRunStep, h]
  rfl

/-- A running step that is a SCAN_END changes DEC's registers and nothing else. -/
theorem runStep_scanEnd {s : Codec W} (h : decSelect s.dec = some .scanEnd) :
    runStep .dec s = .next ⟨W, s.withDec (decScanEnd s.dec)⟩ := by
  rw [runStep, decRunStep, h]
  rfl

theorem input_succ (s : Codec W) (sp : Space) (n : Nat) : s.input sp (n + 1) = s.input sp n ++ [s.readCell sp n] := by
  simp [Codec.input, Codec.cells, List.range_succ]

/-- A text in a buffer is valid cell by cell. -/
theorem allValid_input {s : Codec W} {sp : Space} {n : Nat} :
    allValid (s.input sp n) ↔ ∀ i < n, classify (s.readCell sp i) ≠ .invalid := by
  simp [allValid, Codec.input, Codec.cells]

theorem allValid_input_of_le {s : Codec W} {sp : Space} {m n : Nat} (hmn : m ≤ n) (h : allValid (s.input sp n)) :
    allValid (s.input sp m) :=
  allValid_input.2 fun i hi => allValid_input.1 h i (hi.trans_le hmn)

section ScanPass

variable {s : Codec W} {op : DecOp} {len cap : Idx W} {n : Nat}

/-- The running step of DEC with `n` code units scanned, fewer than `LEN`. -/
theorem runStep_decScanned (hn : n < len.toNat) :
    runStep .dec (s.withDec (decScanned op len cap (s.input .decIbuf n))) =
      .next ⟨W, s.withDec (decScan (decScanned op len cap (s.input .decIbuf n)) (s.readCell .decIbuf n))⟩ := by
  have hlen := input_length s .decIbuf n
  have hsel := decSelect_decScanned op cap (hlen.trans_le hn.le)
  rw [hlen, decStepAt_of_lt hn] at hsel
  rw [runStep_scan hsel, Codec.withDec_dec, decScanned_inIdx op cap (hlen.trans_le hn.le), hlen, Codec.withDec_readCell,
    Codec.withDec_withDec]

/-- A run over a valid text begins with a SCAN step for each code unit, which only moves DEC's registers on. -/
theorem runBlock_scan (hn : n ≤ len.toNat) (hvalid : allValid (s.input .decIbuf n)) (m : Nat) :
    runBlock .dec (n + m) (s.withDec (decStart op len cap)) =
      runBlock .dec m (s.withDec (decScanned op len cap (s.input .decIbuf n))) := by
  induction n generalizing m with
  | zero => rw [Nat.zero_add, ← decScanned_nil]; rfl
  | succ n ih =>
    have hstep := runStep_decScanned (s := s) (op := op) (cap := cap) hn
    rw [decScan_decScanned (allValid_input.1 hvalid n (Nat.lt_succ_self n)), ← input_succ] at hstep
    rw [Nat.add_right_comm, Nat.add_assoc, ih (Nat.le_of_succ_le hn) (allValid_input_of_le n.le_succ hvalid),
      runBlock_succ m (busy_decScanned ..) hstep]

/-- Over a valid text DEC is `BUSY` after each SCAN step, with the next step of R126 selected. -/
theorem runBlock_scan_busy (hn : n ≤ len.toNat) (hvalid : allValid (s.input .decIbuf n)) :
    ∃ v : Codec W, runBlock .dec n (s.withDec (decStart op len cap)) = .next ⟨W, v⟩ ∧ v.busy .dec = true ∧
      decSelect v.dec = some (decStepAt len.toNat n) := by
  have hlen := input_length s .decIbuf n
  have hsel := decSelect_decScanned op cap (hlen.trans_le hn)
  exact ⟨_, (runBlock_scan hn hvalid 0).trans (runBlock_zero ..), busy_decScanned .., by rwa [hlen] at hsel⟩

/-- Over a valid text the step after the last SCAN is SCAN_END (R114). -/
theorem runBlock_scanEnd (hvalid : allValid (s.input .decIbuf len.toNat)) :
    runBlock .dec (len.toNat + 1) (s.withDec (decStart op len cap)) =
      .next ⟨W, s.withDec (decScanEnd (decScanned op len cap (s.input .decIbuf len.toNat)))⟩ := by
  have hlen := input_length s .decIbuf len.toNat
  have hsel := decSelect_decScanned op cap hlen.le
  rw [hlen, decStepAt_self] at hsel
  rw [runBlock_scan le_rfl hvalid, runBlock_succ 0 (busy_decScanned ..) (runStep_scanEnd hsel), runBlock_zero,
    Codec.withDec_dec, Codec.withDec_withDec]

/-- The step that meets the first `INVALID` code unit is a SCAN, and it raises (R126, R135). -/
theorem runBlock_scan_raise (hn : n < len.toNat) (hvalid : allValid (s.input .decIbuf n))
    (hc : classify (s.readCell .decIbuf n) = .invalid) :
    runBlock .dec (n + 1) (s.withDec (decStart op len cap)) =
      .next ⟨W, s.withDec { decScanned op len cap (s.input .decIbuf n) with status := raise .invalidCharacter }⟩ := by
  rw [runBlock_scan hn.le hvalid, runBlock_succ 0 (busy_decScanned ..) (runStep_decScanned hn), runBlock_zero,
    decScan_of_invalid hc]

end ScanPass

/-- A change of DEC's registers changes nothing else of the machine. -/
theorem withDec_frame (s : Codec W) (r : DecRegs W) :
    sameBuffers s (s.withDec r) ∧ sameOutside .dec s (s.withDec r) ∧ (s.withDec r).turns = s.turns :=
  ⟨s.withDec_buf r, ⟨rfl, rfl, rfl, rfl, rfl, rfl⟩, rfl⟩

/-- DATALEN ends in SCAN_END with the data length of what was scanned (R83, R114). -/
theorem decScanEnd_datalen_result {len cap : Idx W} {text : List Byte} (h : text.length ≤ len.toNat) :
    (decScanEnd (decScanned .datalen len cap text)).status.result.toNat = dataLenOf text := by
  rw [dataLenOf, ← decScanned_k .datalen cap h, ← dataLen_toNat]
  rfl

/-- Settles O28: the SCAN steps are `runBlock_scan_busy`, the last step is `runBlock_scanEnd`, and only DEC's registers have
changed (`withDec_frame`). -/
theorem datalenRunsToItsResult : Obligations.DatalenRunsToItsResult := by
  intro W s len cap hb hvalid
  exact ⟨_, _, exec_dec_fields rfl hb rfl rfl, fun k hk => runBlock_scan_busy hk (allValid_input_of_le hk hvalid),
    runBlock_scanEnd hvalid, rfl, rfl, decScanEnd_datalen_result (input_length s .decIbuf len.toNat).le,
    withDec_frame s _⟩

/-- Settles O30: until the `INVALID` code unit the steps are those of a valid text (`runBlock_scan_busy`), and the SCAN of that
code unit raises (`runBlock_scan_raise`) without a change of `IN_IDX` and `K`, or of anything outside DEC's registers. -/
theorem firstInvalidCharacterEndsTheOperation : Obligations.FirstInvalidCharacterEndsTheOperation := by
  intro W s len cap p hb hp hvalid hc i hi
  have hlen := input_length s .decIbuf p
  obtain ⟨hblock, hilen, hicap⟩ : i.block = .dec ∧ i.len = len.toNat ∧ i.cap = cap.toNat := by
    simp only [List.mem_cons, List.not_mem_nil, or_false] at hi
    obtain rfl | rfl := hi <;> exact ⟨rfl, rfl, rfl⟩
  refine ⟨_, _, exec_dec_fields hblock hb hilen hicap, fun k hk => ?_, runBlock_scan_raise hp hvalid hc, rfl,
    (decScanned_inIdx (decOpOf i) cap (hlen.trans_le hp.le)).trans hlen,
    decScanned_k (decOpOf i) cap (hlen.trans_le hp.le), withDec_frame s _⟩
  have hscan := runBlock_scan_busy (op := decOpOf i) (cap := cap) (hk.trans hp.le) (allValid_input_of_le hk hvalid)
  rwa [decStepAt_of_lt (hk.trans_lt hp)] at hscan

end Sys2Proof.Machine

/-! The encoder: its steps one by one, whole ENCODEs, what it never writes, and the invariant that every step of the machine
keeps (spec/41_encoder.md). -/

namespace Sys2Proof.Machine

variable {W : Nat}

/-! ### The invariant of each block over its own buffers -/

/-- The part of the machine's invariant that speaks of ENC: its registers, its input and its output. -/
def Codec.EncInv (s : Codec W) : Prop := s.enc.Inv (s.input .encIbuf s.enc.len.toNat) (s.readCell .encObuf)

/-- The part of the machine's invariant that speaks of DEC: its registers, its input and its output. -/
def Codec.DecInv (s : Codec W) : Prop := s.dec.Inv (s.input .decIbuf s.dec.len.toNat) (s.readCell .decObuf)

/-- The machine's invariant is that of the two blocks, and the canonical form of the spaces. -/
theorem Codec.inv_iff {s : Codec W} : s.Inv ↔ s.EncInv ∧ s.DecInv ∧ ∀ sp, (s.buf sp).wf W = true :=
  ⟨fun h => ⟨h.enc, h.dec, h.mem⟩, fun ⟨henc, hdec, hmem⟩ => ⟨henc, hdec, hmem⟩⟩

/-- ENC after a change of its registers and a store into its output. -/
theorem encInv_applyWrite {s : Codec W} {r : EncRegs W} {w : Option (ObWrite W)} :
    ((s.withEnc r).applyWrite .encObuf w).EncInv ↔
      r.Inv (s.input .encIbuf r.len.toNat) (patched (s.readCell .encObuf) w) := by
  rw [Codec.EncInv, Codec.applyWrite_readCell, Codec.applyWrite_enc, Codec.withEnc_enc, Codec.withEnc_readCell,
    input_congr ((Codec.applyWrite_buf_other _ w (by decide)).trans (s.withEnc_buf r _))]

/-- DEC after a change of its registers and a store into its output. -/
theorem decInv_applyWrite {s : Codec W} {r : DecRegs W} {w : Option (ObWrite W)} :
    ((s.withDec r).applyWrite .decObuf w).DecInv ↔
      r.Inv (s.input .decIbuf r.len.toNat) (patched (s.readCell .decObuf) w) := by
  rw [Codec.DecInv, Codec.applyWrite_readCell, Codec.applyWrite_dec, Codec.withDec_dec, Codec.withDec_readCell,
    input_congr ((Codec.applyWrite_buf_other _ w (by decide)).trans (s.withDec_buf r _))]

/-- Nothing outside ENC matters to its part of the invariant. -/
theorem Codec.EncInv.of_sameOutside {s t : Codec W} (h : s.EncInv) (hout : sameOutside .dec s t) : t.EncInv := by
  obtain ⟨henc, -, hin, hobuf, -⟩ := hout
  rw [Codec.EncInv, henc, input_congr (sp := .encIbuf) hin, funext (Codec.readCell_congr (sp := .encObuf) hobuf)]
  exact h

/-- Nothing outside DEC matters to its part of the invariant. -/
theorem Codec.DecInv.of_sameOutside {s t : Codec W} (h : s.DecInv) (hout : sameOutside .enc s t) : t.DecInv := by
  obtain ⟨hdec, -, hin, hobuf, -⟩ := hout
  rw [Codec.DecInv, hdec, input_congr (sp := .decIbuf) hin, funext (Codec.readCell_congr (sp := .decObuf) hobuf)]
  exact h

/-! ### Every step keeps the invariant -/

/-- What the read port of ENC answers to a LOAD is the byte of the input at `IN_IDX` (R29, R94). -/
theorem Codec.encIbuf_rdata (s : Codec W) {k : EncStep} (hi : s.enc.inIdx.toNat < s.enc.len.toNat) (hk : k = .load) :
    s.ibRdata .encIbuf (encReadAddr s.enc k) = (s.input .encIbuf s.enc.len.toNat).getD s.enc.inIdx.toNat 0 := by
  subst hk
  exact (input_getD s .encIbuf hi).symm

/-- A running step of ENC keeps its invariant (R99). -/
theorem encRunStep_encInv {s t : Codec W} (hb : s.busy .enc = true) (hinv : s.EncInv)
    (h : encRunStep s = .next ⟨W, t⟩) : t.EncInv := by
  obtain ⟨k, hk, e⟩ := encRunStep_next h
  obtain ⟨hnext, hlen, -⟩ := encNext_inv hinv (input_length ..) ((s.busy_iff _).1 hb) hk s.encIbuf_rdata
  cases e
  rw [encInv_applyWrite, hlen]
  exact hnext

/-- What the read port of DEC answers is the code unit of the input at `IN_IDX` (R29, R113, R115). -/
theorem Codec.decIbuf_rdata (s : Codec W) {k : DecStep} (hi : s.dec.inIdx.toNat < s.dec.len.toNat)
    (hk : decReadAddr s.dec k = some s.dec.inIdx) :
    s.ibRdata .decIbuf (decReadAddr s.dec k) = (s.input .decIbuf s.dec.len.toNat).getD s.dec.inIdx.toNat 0 := by
  rw [hk]
  exact (input_getD s .decIbuf hi).symm

/-- A step of a `BUSY` DEC keeps the invariant and the length, whichever row of R128 selects it. -/
theorem decNext_inv {r : DecRegs W} {input : List Byte} {out : Nat → Byte} {k : DecStep} {rdata : Byte}
    (hinv : r.Inv input out) (hlen : input.length = r.len.toNat) (hb : r.status.state = .busy) (hk : decSelect r = some k)
    (hrd : r.inIdx.toNat < r.len.toNat → decReadAddr r k = some r.inIdx → rdata = input.getD r.inIdx.toNat 0) :
    (decNext r rdata k).1.Inv input (patched out (decNext r rdata k).2) ∧ (decNext r rdata k).1.len = r.len := by
  have hsel := decSelect_cases hk
  cases k with
  | scan =>
    obtain ⟨hphase, hi⟩ := hsel
    obtain ⟨hnext, hkeep, -⟩ := decScan_inv hinv hlen hb hphase hi (hrd hi rfl)
    exact ⟨hnext, hkeep⟩
  | scanEnd =>
    obtain ⟨hphase, hi⟩ := hsel
    obtain ⟨hnext, hkeep, -⟩ := decScanEnd_inv hinv hlen hb hphase hi
    exact ⟨hnext, hkeep⟩
  | run =>
    obtain ⟨hphase, hi⟩ := hsel
    obtain ⟨hnext, hkeep, -⟩ := decRun_inv hinv hlen hb hphase hi (hrd hi rfl)
    exact ⟨hnext, hkeep⟩
  | runEnd =>
    obtain ⟨hphase, hi⟩ := hsel
    exact ⟨(decRunEnd_inv hinv hlen hb hphase hi).1, rfl⟩

/-- A running step of DEC keeps its invariant (R121). -/
theorem decRunStep_decInv {s t : Codec W} (hb : s.busy .dec = true) (hinv : s.DecInv)
    (h : decRunStep s = .next ⟨W, t⟩) : t.DecInv := by
  obtain ⟨k, hk, e⟩ := decRunStep_next h
  obtain ⟨hnext, hlen⟩ := decNext_inv hinv (input_length ..) ((s.busy_iff _).1 hb) hk s.decIbuf_rdata
  cases e
  rw [decInv_applyWrite, hlen]
  exact hnext

theorem Codec.applyWrite_wf {s : Codec W} {sp sp' : Space} (w : Option (ObWrite W)) (h : (s.buf sp').wf W = true) :
    ((s.applyWrite sp w).buf sp').wf W = true := by
  cases w with
  | none => exact h
  | some w => exact s.writeCell_wf sp w.addr w.data h

/-- A running step of either block keeps the invariant: its own part by its own steps, the rest by the frame. -/
theorem runStep_inv {b : Block} {s t : Codec W} (hb : s.busy b = true) (hinv : s.Inv)
    (h : runStep b s = .next ⟨W, t⟩) : t.Inv := by
  obtain ⟨henc, hdec, hmem⟩ := Codec.inv_iff.1 hinv
  have hmem' : ∀ sp, (t.buf sp).wf W = true := fun sp => by
    obtain ⟨r, hr, rfl⟩ := runStep_stores hb h
    exact Codec.applyWrite_wf _ (hr sp ▸ hmem sp)
  have hout := runStep_sameOutside h
  cases b with
  | enc => exact Codec.inv_iff.2 ⟨encRunStep_encInv hb henc h, hdec.of_sameOutside hout, hmem'⟩
  | dec => exact Codec.inv_iff.2 ⟨henc.of_sameOutside hout, decRunStep_decInv hb hdec h, hmem'⟩

theorem Codec.Inv.withTurns {s : Codec W} (h : s.Inv) (ts : List (Turn W)) : (s.withTurns ts).Inv :=
  ⟨h.enc, h.dec, fun sp => by simpa using h.mem sp⟩

theorem Codec.Inv.setCmd {s : Codec W} (h : s.Inv) (b : Block) (c : Option (CmdWord W)) : (s.setCmd b c).Inv := by
  cases b <;> exact ⟨h.enc, h.dec, h.mem⟩

/-- Registers of ENC that have the invariant over any buffers may replace those of ENC. -/
theorem Codec.Inv.withEnc {s : Codec W} (h : s.Inv) {r : EncRegs W} (hr : ∀ input out, r.Inv input out) :
    (s.withEnc r).Inv :=
  ⟨hr _ _, h.dec, fun sp => by simpa using h.mem sp⟩

/-- Registers of DEC that have the invariant over any buffers may replace those of DEC. -/
theorem Codec.Inv.withDec {s : Codec W} (h : s.Inv) {r : DecRegs W} (hr : ∀ input out, r.Inv input out) :
    (s.withDec r).Inv :=
  ⟨h.enc, hr _ _, fun sp => by simpa using h.mem sp⟩

/-- A command offered to its block keeps the invariant: what it leaves in the registers is `encStart` or `decStart`. -/
theorem exec_inv {i : Instr} {s t : Codec W} (hinv : s.Inv) (h : exec i ⟨W, s⟩ = .next ⟨W, t⟩) : t.Inv := by
  cases hb : s.busy i.block with
  | true =>
    rw [exec_busy hb] at h
    cases h
    exact hinv
  | false =>
    cases hi : i.block <;> rw [hi] at hb
    · rw [exec_enc hi hb] at h
      cases h
      exact hinv.withEnc (encStart_inv _ _ _)
    · rw [exec_dec hi hb] at h
      cases h
      exact hinv.withDec (decStart_inv _ _ _)

theorem blockTurn_inv {b : Block} {s t : Codec W} (hinv : s.Inv) (h : blockTurn b s = .next ⟨W, t⟩) : t.Inv := by
  obtain ⟨hb, h⟩ | ⟨-, -, h⟩ | ⟨-, w, -, h⟩ := blockTurn_next h
  · exact runStep_inv hb hinv h
  · cases h
    exact hinv
  · exact exec_inv (hinv.setCmd b none) h

/-- A store of the host keeps the invariant, as it comes only while the block of the cell is not `BUSY` (R48). -/
theorem Codec.Inv.writeCell {s : Codec W} {sp : Space} (h : s.Inv) (hb : s.busy sp.block = false) (i : Idx W) (v : Byte) :
    (s.writeCell sp i.toNat v).Inv := by
  have hmem := fun sp' => s.writeCell_wf sp i v (h.mem sp')
  have hidle := (s.not_busy_iff _).1 hb
  cases sp with
  | encIbuf => exact ⟨h.enc.of_idle hidle, h.dec, hmem⟩
  | encObuf => exact ⟨h.enc.of_idle hidle, h.dec, hmem⟩
  | decIbuf => exact ⟨h.enc, h.dec.of_idle hidle, hmem⟩
  | decObuf => exact ⟨h.enc, h.dec.of_idle hidle, hmem⟩

theorem Codec.Inv.resetBlock {s : Codec W} (h : s.Inv) (b : Block) : (s.resetBlock b).Inv := by
  cases b with
  | enc => exact h.withEnc EncRegs.reset_inv
  | dec => exact h.withDec DecRegs.reset_inv

theorem hostMove_inv {m : HostMove W} {s t : Codec W} (hinv : s.Inv) (h : hostMove m s = .next ⟨W, t⟩) : t.Inv := by
  obtain e | ⟨b, c, e⟩ | ⟨b, -, e⟩ | ⟨sp, i, v, hb, e⟩ := hostMove_next h <;> cases e
  · exact hinv
  · exact hinv.setCmd b c
  · exact hinv.resetBlock b
  · exact hinv.writeCell hb i v

/-- Settles O49: whoever moves, it is nobody, a block (`blockTurn_inv`) or the host (`hostMove_inv`). -/
theorem stepKeepsTheInvariant : Obligations.StepKeepsTheInvariant := by
  rintro ⟨W, s⟩ t ⟨hwidth, hinv⟩ hstep
  obtain ⟨t, rfl⟩ := step_width hstep
  refine ⟨hwidth, ?_⟩
  obtain ⟨ts, e | ⟨b, h⟩ | ⟨m, -, h⟩⟩ := step_next hstep
  · cases e
    exact hinv.withTurns ts
  · exact blockTurn_inv (hinv.withTurns ts) h
  · exact hostMove_inv (hinv.withTurns ts) h

/-! ### Acceptance of ENCODE -/

/-- The status after the accepting step of ENCODE: the capacity check of R92. -/
theorem encStart_encode_status (len cap : Idx W) :
    (encStart .encode len cap).status =
      if cap.toNat < enclen len.toNat then raise .insufficientOutputCapacity else started := rfl

theorem encStart_encode_status_of_lt {len cap : Idx W} (h : cap.toNat < enclen len.toNat) :
    (encStart .encode len cap).status = ⟨.error, .insufficientOutputCapacity, 0⟩ := by
  rw [encStart_encode_status, if_pos h]
  rfl

theorem encStart_encode_status_of_le {len cap : Idx W} (h : enclen len.toNat ≤ cap.toNat) :
    (encStart .encode len cap).status = ⟨.busy, .noError, 0⟩ := by
  rw [encStart_encode_status, if_neg (Nat.not_lt.2 h)]
  rfl

/-- Settles O14: the accepting step (`exec_enc_fields`) writes `REQ` without loss (`enclen_toNat`), and the capacity check
decides the status (`encStart_encode_status_of_lt`, `encStart_encode_status_of_le`). -/
theorem encodeIsAccepted : Obligations.EncodeIsAccepted := by
  intro W s len cap hb
  have hresult : (encStart .encode len cap).status.result = 0 := by
    rw [encStart_encode_status]
    split <;> rfl
  refine ⟨encStart .encode len cap, exec_enc_fields rfl hb rfl rfl, rfl, rfl, rfl, enclen_toNat len, rfl, rfl, rfl, rfl,
    hresult, fun h => ?_, fun h => ?_⟩
  · rw [encStart_encode_status_of_lt h]
    exact ⟨rfl, rfl⟩
  · rw [encStart_encode_status_of_le h]
    exact ⟨rfl, rfl⟩

/-! ### One step of a running ENCODE -/

/-- The converse of `encSelect_cases`, row by row: EMIT comes first (R93). -/
theorem encSelect_emit {r : EncRegs W} (hheld : 5 ≤ r.held.toNat) : encSelect r = some .emit := if_pos hheld

theorem encSelect_load {r : EncRegs W} (hheld : r.held.toNat ≤ 4) (hi : r.inIdx.toNat < r.len.toNat) :
    encSelect r = some .load := by
  rw [encSelect, if_neg (by omega), if_pos hi]

theorem encSelect_flush {r : EncRegs W} (hpos : 1 ≤ r.held.toNat) (hheld : r.held.toNat ≤ 4) (hi : r.inIdx = r.len) :
    encSelect r = some .flush := by
  have hne : r.held ≠ 0 := fun h => by simp [h] at hpos
  rw [encSelect, if_neg (by omega), if_neg (by simp [hi]), if_pos hi, if_neg hne]

theorem encSelect_finish {r : EncRegs W} (hheld : r.held = 0) (hi : r.inIdx = r.len) : encSelect r = some .finish := by
  rw [encSelect, if_neg (by simp [hheld]), if_neg (by simp [hi]), if_pos hi, if_pos hheld]

/-- The running step of ENC is the step selected, over the byte its read port answers. -/
theorem runStep_enc {s : Codec W} {k : EncStep} (hk : encSelect s.enc = some k) :
    runStep .enc s =
      .next ⟨W, (s.withEnc (encNext s.enc (s.ibRdata .encIbuf (encReadAddr s.enc k)) k)).applyWrite .encObuf
        (encWrite s.enc k)⟩ := by
  rw [runStep, encRunStep, hk]

/-- A step in which a `BUSY` ENC has the turn. -/
theorem step_enc {s : Codec W} {ts : List (Turn W)} {k : EncStep} (hts : s.turns = .block .enc :: ts)
    (hb : s.busy .enc = true) (hk : encSelect s.enc = some k) :
    step ⟨W, s⟩ =
      .next ⟨W, ((s.withTurns ts).withEnc (encNext s.enc (s.ibRdata .encIbuf (encReadAddr s.enc k)) k)).applyWrite .encObuf
        (encWrite s.enc k)⟩ := by
  rw [step_block hts, blockTurn_busy (by simpa using hb), runStep_enc (s := s.withTurns ts) hk, Codec.withTurns_enc,
    Codec.withTurns_ibRdata]

/-- Settles O19: the step is a LOAD (`encSelect_load`), which shifts the byte in (`encPushByte_toNat`) and counts `HELD` and
`IN_IDX` up without loss. -/
theorem loadStep : Obligations.LoadStep := by
  intro W s ts hts hb hheld hi
  have hcount : (s.enc.held + 8).toNat = s.enc.held.toNat + 8 := by
    rw [BitVec.toNat_add]
    exact Nat.mod_eq_of_lt (by simp; omega)
  exact ⟨encLoad s.enc (s.readCell .encIbuf s.enc.inIdx.toNat), step_enc hts hb (encSelect_load hheld hi), rfl,
    encPushByte_toNat _ _, hcount, toNat_succ_of_lt hi⟩

/-- The symbol of an EMIT is `ACC[HELD-1 : HELD-5]` (R95). -/
theorem encTopSymbol_toNat (acc : Acc) (held : Nat) :
    (encTopSymbol acc held).toNat = acc.toNat / 2 ^ (held - 5) % 32 := by
  rw [encTopSymbol, BitVec.toNat_setWidth, BitVec.toNat_ushiftRight, Nat.shiftRight_eq_div_pow]

/-- The symbol of a FLUSH has the bits held on top and zeros below (R97). -/
theorem encLastSymbol_toNat (acc : Acc) {held : Nat} (h : held ≤ 5) :
    (encLastSymbol acc held).toNat = acc.toNat % 2 ^ held * 2 ^ (5 - held) := by
  rw [encLastSymbol, BitVec.toNat_setWidth, BitVec.toNat_shiftLeft, Nat.shiftLeft_eq,
    Nat.mod_mod_of_dvd _ (pow_dvd_pow 2 (by decide : 5 ≤ 12)), ← Nat.mul_mod_mul_right, ← pow_add, Nat.add_sub_cancel' h]

/-- A step of ENC that writes changes its registers, the one cell, and the turns. -/
theorem step_enc_store {s : Codec W} {ts : List (Turn W)} {k : EncStep} {w : ObWrite W}
    (hts : s.turns = .block .enc :: ts) (hb : s.busy .enc = true) (hk : encSelect s.enc = some k)
    (hw : encWrite s.enc k = some w) :
    ∃ t : Codec W, step ⟨W, s⟩ = .next ⟨W, t⟩ ∧
      t.enc = encNext s.enc (s.ibRdata .encIbuf (encReadAddr s.enc k)) k ∧
      t.readCell .encObuf w.addr.toNat = w.data ∧ sameCellsExcept .encObuf (· = w.addr.toNat) s t ∧
      sameOutside .enc s t ∧ t.turns = ts := by
  have hstep := step_enc hts hb hk
  obtain ⟨hturns, -, hcell, hout, -⟩ := blockTurnStoresWhatThePortShows W s _ .enc ts hts hstep
  obtain ⟨hread, hother⟩ := hcell w ((Codec.obPort_enc hb hk).trans hw)
  exact ⟨_, hstep, by simp, hread, hother, hout hb, hturns⟩

/-- Settles O20: the step is an EMIT (`encSelect_emit`), which writes `encTopSymbol`. -/
theorem emitStep : Obligations.EmitStep := by
  intro W s ts hts hb hlo hhi
  obtain ⟨t, hstep, henc, hcell⟩ := step_enc_store hts hb (encSelect_emit hlo) rfl
  refine ⟨t, _, hstep, encTopSymbol_toNat s.enc.acc s.enc.held.toNat, by rw [henc]; rfl, ?_, hcell⟩
  rw [henc]
  show (s.enc.held - 5).toNat = _
  bv_omega

/-- Settles O21: the step is a FLUSH (`encSelect_flush`), which writes `encLastSymbol`. -/
theorem flushStep : Obligations.FlushStep := by
  intro W s ts hts hb hlo hhi hi
  obtain ⟨t, hstep, henc, hcell⟩ := step_enc_store hts hb (encSelect_flush hlo hhi hi) rfl
  exact ⟨t, _, hstep, encLastSymbol_toNat s.enc.acc (by omega), henc, hcell⟩

/-- Settles O22: the step is a FINISH (`encSelect_finish`), and `RESULT` holds `OUT_IDX` without loss (`count_toNat`). -/
theorem finishStep : Obligations.FinishStep := by
  intro W s ts hts hb hheld hi
  exact ⟨encFinish s.enc, step_enc hts hb (encSelect_finish hheld hi), rfl, count_toNat s.enc.outIdx, rfl, rfl⟩

/-! ### The transitions of ENC's `STATE` -/

/-- What a command accepted by ENC leaves: ENCLEN is done, ENCODE runs or has failed as its `cap` says (R105). -/
theorem encStart_transitions (op : EncOp) (len cap : Idx W) :
    (op = .enclen ∧ (encStart op len cap).status.state = .done) ∨
    (op = .encode ∧ enclen len.toNat ≤ cap.toNat ∧ (encStart op len cap).status.state = .busy) ∨
    (op = .encode ∧ cap.toNat < enclen len.toNat ∧ (encStart op len cap).status.state = .error) := by
  cases op with
  | enclen => exact .inl ⟨rfl, rfl⟩
  | encode =>
    obtain h | h := Nat.lt_or_ge cap.toNat (enclen len.toNat)
    · exact .inr (.inr ⟨rfl, h, by rw [encStart_encode_status_of_lt h]⟩)
    · exact .inr (.inl ⟨rfl, h, by rw [encStart_encode_status_of_le h]⟩)

/-- A step of a `BUSY` ENC leaves it `BUSY` or is its FINISH; none raises (R105). -/
theorem encNext_transitions {r : EncRegs W} (hb : r.status.state = .busy) (rdata : Byte) (k : EncStep) :
    (encNext r rdata k).status.state = .busy ∨ (encNext r rdata k).status.state = .done := by
  cases k with
  | load => exact .inl hb
  | emit => exact .inl hb
  | flush => exact .inl hb
  | finish => exact .inr rfl

/-- The turn of DEC leaves ENC's registers alone. -/
theorem blockTurn_dec_enc {s t : Codec W} (h : blockTurn .dec s = .next ⟨W, t⟩) : t.enc = s.enc := by
  cases hb : s.busy .dec with
  | true =>
    rw [blockTurn_busy hb] at h
    obtain ⟨henc, -⟩ := runStep_sameOutside h
    exact henc
  | false =>
    obtain ⟨-, -, henc, -⟩ := blockTurn_frame_of_not_busy hb h
    simpa using henc

/-- Every change of ENC's `STATE` in its own turn is one of R105. -/
theorem blockTurn_enc_transitions {s t : Codec W} (h : blockTurn .enc s = .next ⟨W, t⟩) :
    t.enc = s.enc ∨
    (s.busy .enc = false ∧ t.enc.op = .enclen ∧ t.enc.status.state = .done) ∨
    (s.busy .enc = false ∧ t.enc.op = .encode ∧ enclen t.enc.len.toNat ≤ t.enc.cap.toNat ∧
      t.enc.status.state = .busy) ∨
    (s.busy .enc = false ∧ t.enc.op = .encode ∧ t.enc.cap.toNat < enclen t.enc.len.toNat ∧
      t.enc.status.state = .error) ∨
    (s.busy .enc = true ∧ (t.enc.status.state = .busy ∨ t.enc.status.state = .done)) := by
  obtain ⟨hb, h⟩ | ⟨-, -, h⟩ | ⟨hb, w, -, h⟩ := blockTurn_next h
  · obtain ⟨k, -, e⟩ := encRunStep_next h
    cases e
    rw [Codec.applyWrite_enc, Codec.withEnc_enc]
    exact .inr (.inr (.inr (.inr ⟨hb, encNext_transitions ((s.busy_iff _).1 hb) _ k⟩)))
  · cases h
    exact .inl rfl
  · rw [exec_enc (decodeCmd_block _ w) (by simpa using hb)] at h
    cases h
    obtain hdone | hbusy | herror := encStart_transitions (encOpOf (decodeCmd .enc w)) (BitVec.ofNat W (decodeCmd .enc w).len)
      (BitVec.ofNat W (decodeCmd .enc w).cap)
    · exact .inr (.inl ⟨hb, hdone⟩)
    · exact .inr (.inr (.inl ⟨hb, hbusy⟩))
    · exact .inr (.inr (.inr (.inl ⟨hb, herror⟩)))

/-- Of all host moves only the reset of ENC changes its registers. -/
theorem hostMove_enc {m : HostMove W} {s t : Codec W} (h : hostMove m s = .next ⟨W, t⟩) :
    t.enc = s.enc ∨ (m = .reset .enc ∧ t.enc = EncRegs.reset W) := by
  obtain e | ⟨b, c, e⟩ | ⟨b, hm, e⟩ | ⟨sp, i, v, -, e⟩ := hostMove_next h <;> cases e
  · exact .inl rfl
  · exact .inl (s.setCmd_enc b c)
  · cases b with
    | enc => exact .inr ⟨hm, rfl⟩
    | dec => exact .inl rfl
  · exact .inl (s.setBuf_enc sp _)

/-- Settles O38: ENC's registers change only in its own turn (`blockTurn_enc_transitions`) or by the host's reset
(`hostMove_enc`). -/
theorem encoderStateTransitions : Obligations.EncoderStateTransitions := by
  intro W s m hstep
  obtain ⟨t, rfl⟩ := step_width hstep
  refine ⟨t, rfl, ?_⟩
  obtain ⟨ts, e | ⟨b, h⟩ | ⟨m, hts, h⟩⟩ := step_next hstep
  · cases e
    exact .inl rfl
  · cases b with
    | enc =>
      obtain hsame | hrow := blockTurn_enc_transitions h
      · exact .inl hsame
      · exact .inr (.inr (by simpa using hrow))
    | dec => exact .inl (by simpa using blockTurn_dec_enc h)
  · obtain hsame | ⟨rfl, hreset⟩ := hostMove_enc h
    · exact .inl hsame
    · exact .inr (.inl ⟨hreset, ts, hts⟩)

/-! ### What ENC never writes -/

theorem alpha_ne_padChar (v : SymVal) : alpha v ≠ padChar := (classifyInvertsAlpha.2 v).1

/-- What the write port of ENC shows is a symbol for the cell at `OUT_IDX` (R95, R97). -/
theorem obPort_enc_symbol {s : Codec W} {w : ObWrite W} (h : s.obPort .enc = some w) :
    w.addr = s.enc.outIdx ∧ ∃ v, w.data = alpha v := by
  cases hb : s.busy .enc with
  | false => rw [Codec.obPort_of_not_busy hb] at h; cases h
  | true =>
    cases hk : encSelect s.enc with
    | none => simp [Codec.obPort, hb, hk] at h
    | some k =>
      rw [Codec.obPort_enc hb hk] at h
      cases k <;> cases h <;> exact ⟨rfl, _, rfl⟩

/-- The turn of DEC stores into its own output buffer only. -/
theorem blockTurn_dec_encObuf {s t : Codec W} (h : blockTurn .dec s = .next ⟨W, t⟩) :
    t.readCell .encObuf = s.readCell .encObuf := by
  obtain ⟨r, hr, rfl⟩ := blockTurn_stores h
  exact funext (Codec.readCell_congr ((r.applyWrite_buf_other _ (by decide)).trans (hr .encObuf)))

/-- The turn of ENC leaves a cell of its output as it was, or stores a symbol at `OUT_IDX` (R101). -/
theorem blockTurn_enc_encObuf {s t : Codec W} (h : blockTurn .enc s = .next ⟨W, t⟩) (a : Nat) :
    t.readCell .encObuf a = s.readCell .encObuf a ∨
      (a = s.enc.outIdx.toNat ∧ ∃ v, t.readCell .encObuf a = alpha v) := by
  obtain ⟨r, hr, rfl⟩ := blockTurn_stores h
  rw [obufOf, Codec.applyWrite_readCell, funext (Codec.readCell_congr (hr .encObuf))]
  cases hw : s.obPort .enc with
  | none => exact .inl rfl
  | some w =>
    obtain ⟨haddr, v, hdata⟩ := obPort_enc_symbol hw
    by_cases ha : a = w.addr.toNat
    · exact .inr ⟨haddr ▸ ha, v, (if_pos ha).trans hdata⟩
    · exact .inl (if_neg ha)

/-- Settles O44: without the host only ENC's own turn stores into its output (`blockTurn_dec_encObuf`,
`blockTurn_enc_encObuf`), and no symbol is the padding character (`alpha_ne_padChar`). -/
theorem encoderNeverWritesPadding : Obligations.EncoderNeverWritesPadding := by
  intro W s t a hhost hstep
  obtain ⟨ts, e | ⟨b, h⟩ | ⟨m, hts, -⟩⟩ := step_next hstep
  · cases e
    exact .inl rfl
  · cases b with
    | enc =>
      obtain hsame | ⟨ha, v, hv⟩ := blockTurn_enc_encObuf h a
      · exact .inl (by simpa using hsame)
      · exact .inr ⟨ha, hv ▸ alpha_ne_padChar v, v, hv⟩
    | dec => exact .inl (by simpa using congrFun (blockTurn_dec_encObuf h) a)
  · exact absurd hts (hhost m ts)

/-! ### A whole ENCODE -/

/-- What the steps of a running ENCODE keep: `LEN`, `REQ`, everything outside ENC, the cells from `REQ` on, and the turns. -/
structure EncFrame (s t : Codec W) : Prop where
  len : t.enc.len = s.enc.len
  req : t.enc.req = s.enc.req
  outside : sameOutside .enc s t
  cells : sameCellsExcept .encObuf (· < s.enc.req.toNat) s t
  turns : t.turns = s.turns

theorem EncFrame.refl (s : Codec W) : EncFrame s s :=
  ⟨rfl, rfl, sameOutside_refl _ _, fun _ _ => rfl, rfl⟩

theorem EncFrame.trans {s t u : Codec W} (h : EncFrame s t) (h' : EncFrame t u) : EncFrame s u :=
  ⟨h'.len.trans h.len, h'.req.trans h.req, h.outside.trans h'.outside,
    fun a ha => (h'.cells a (h.req ▸ ha)).trans (h.cells a ha), h'.turns.trans h.turns⟩

/-- The steps made and those left add up (R103, R104). -/
theorem Codec.EncInv.progress {s : Codec W} (h : s.EncInv) :
    s.enc.inIdx.toNat + s.enc.outIdx.toNat + encRemaining s.enc = s.enc.len.toNat + s.enc.req.toNat + 1 := by
  have hin := h.inIdx_le
  have hout := h.outIdx_le
  unfold encRemaining
  omega

/-- With the symbols of `REQ` all written, the output holds the text of R91 over the input. -/
theorem Codec.EncInv.text {s : Codec W} (h : s.EncInv) (hb : s.busy .enc = true)
    (hall : s.enc.outIdx.toNat = s.enc.req.toNat) :
    s.cells .encObuf (enclen s.enc.len.toNat) = encRef (s.input .encIbuf s.enc.len.toNat) := by
  have hwritten := (h.running ((s.busy_iff _).1 hb)).written
  rw [hall, h.req_eq] at hwritten
  rw [encoderLoopIsTheBitStream, input_length]
  exact List.map_congr_left fun j hj => hwritten j (List.mem_range.1 hj)

theorem encRemaining_pos (r : EncRegs W) : 0 < encRemaining r := Nat.succ_pos _

/-- A store into a space changes no cell but its own. -/
theorem sameCellsExcept_applyWrite {s r : Codec W} {sp : Space} {w : Option (ObWrite W)} {touched : Nat → Prop}
    (hr : r.readCell sp = s.readCell sp) (hw : ∀ o, w = some o → touched o.addr.toNat) :
    sameCellsExcept sp touched s (r.applyWrite sp w) := by
  intro a ha
  rw [Codec.applyWrite_readCell, hr]
  cases w with
  | none => rfl
  | some o => exact if_neg fun h => ha (by rw [h]; exact hw o rfl)

/-- While more than FINISH is left, a step of ENC is one step fewer to go, and ENC stays `BUSY`. -/
theorem runStep_enc_unfinished {s : Codec W} (hb : s.busy .enc = true) (hinv : s.EncInv) (hleft : 1 < encRemaining s.enc) :
    ∃ t : Codec W, runStep .enc s = .next ⟨W, t⟩ ∧ t.busy .enc = true ∧ t.EncInv ∧
      encRemaining t.enc + 1 = encRemaining s.enc ∧ EncFrame s t := by
  have hstate := (s.busy_iff .enc).1 hb
  obtain ⟨k, hk⟩ := encSelect_isSome hinv.inIdx_le
  obtain ⟨-, hlen, -, hreq, haddr, ⟨-, hstatus, hcount⟩ | ⟨-, hlast, -⟩⟩ :=
    encNext_inv hinv (input_length ..) hstate hk s.encIbuf_rdata
  · have hstep := runStep_enc hk
    exact ⟨_, hstep, by simpa [Codec.busy, Codec.status, hstatus] using hstate, encRunStep_encInv hb hinv hstep,
      by simpa using hcount, by simpa using hlen, by simpa using hreq, runStep_sameOutside hstep,
      sameCellsExcept_applyWrite (s.withEnc_readCell _ _) haddr, runStep_turns hstep⟩
  · omega

/-- With nothing else left, the step of ENC is FINISH, with the whole input loaded and the whole text written (R98). -/
theorem runStep_enc_last {s : Codec W} (hb : s.busy .enc = true) (hinv : s.EncInv) (hleft : encRemaining s.enc = 1) :
    runStep .enc s = .next ⟨W, s.withEnc (encFinish s.enc)⟩ ∧ s.enc.inIdx = s.enc.len ∧
      s.enc.outIdx.toNat = s.enc.req.toNat := by
  obtain ⟨k, hk⟩ := encSelect_isSome hinv.inIdx_le
  obtain ⟨-, -, -, -, -, ⟨-, -, hcount⟩ | ⟨rfl, -, -, hall⟩⟩ :=
    encNext_inv hinv (input_length ..) ((s.busy_iff .enc).1 hb) hk s.encIbuf_rdata
  · have hpos := encRemaining_pos (encNext s.enc (s.ibRdata .encIbuf (encReadAddr s.enc k)) k)
    omega
  · exact ⟨runStep_enc hk, (encSelect_cases hk).2, hall⟩

/-- A run of ENC, while more than FINISH is left, is the run of one state after another with the invariant. -/
theorem runBlock_enc {s : Codec W} {n : Nat} (hb : s.busy .enc = true) (hinv : s.EncInv) (hleft : n < encRemaining s.enc) :
    ∃ v : Codec W, (∀ m, runBlock .enc (n + m) s = runBlock .enc m v) ∧ v.busy .enc = true ∧ v.EncInv ∧
      encRemaining v.enc + n = encRemaining s.enc ∧ EncFrame s v := by
  induction n generalizing s with
  | zero => exact ⟨s, fun m => by rw [Nat.zero_add], hb, hinv, rfl, EncFrame.refl s⟩
  | succ n ih =>
    obtain ⟨t, hstep, hbusy, hinvt, hcount, hframe⟩ := runStep_enc_unfinished hb hinv (by omega)
    obtain ⟨v, hrun, hbusyv, hinvv, hcountv, hframev⟩ := ih hbusy hinvt (by omega)
    exact ⟨v, fun m => by rw [Nat.add_right_comm, runBlock_succ _ hb hstep, hrun], hbusyv, hinvv, by omega,
      hframe.trans hframev⟩

/-- After `k` steps of an ENCODE with room for its output, before the last: ENC is `BUSY` with the invariant, `k` of the
`len + enclen(len) + 1` steps are made (R103), and only cells of the text have changed. -/
theorem encode_run (s : Codec W) {len cap : Idx W} {k : Nat} (hroom : enclen len.toNat ≤ cap.toNat)
    (hk : k ≤ len.toNat + enclen len.toNat) :
    ∃ v : Codec W, (∀ m, runBlock .enc (k + m) (s.withEnc (encStart .encode len cap)) = runBlock .enc m v) ∧
      v.busy .enc = true ∧ v.EncInv ∧ encRemaining v.enc + k = len.toNat + enclen len.toNat + 1 ∧
      v.enc.len = len ∧ v.enc.req.toNat = enclen len.toNat ∧ sameOutside .enc s v ∧
      sameCellsExcept .encObuf (· < enclen len.toNat) s v ∧ v.turns = s.turns := by
  have hreq : (encStart .encode len cap).req.toNat = enclen len.toNat := enclen_toNat len
  have hleft : encRemaining (encStart .encode len cap) = len.toNat + enclen len.toNat + 1 := by
    rw [← hreq]
    rfl
  have hbusy : (s.withEnc (encStart .encode len cap)).busy .enc = true := by
    rw [Codec.busy_iff]
    exact congrArg Status.state (encStart_encode_status_of_le hroom)
  obtain ⟨v, hrun, hbusyv, hinvv, hcount, hlenv, hreqv, hout, hcells, hturns⟩ :=
    runBlock_enc (n := k) hbusy (encStart_inv .encode len cap _ _) (by rw [Codec.withEnc_enc, hleft]; omega)
  rw [Codec.withEnc_enc] at hcount hlenv hreqv hcells
  rw [hreq] at hcells
  refine ⟨v, hrun, hbusyv, hinvv, hcount.trans hleft, hlenv, by rw [hreqv, hreq], hout, fun a ha => ?_, hturns⟩
  rw [hcells a ha, Codec.withEnc_readCell]

/-- Settles O27: ENC keeps its invariant up to its last step (`encode_run`), when the text is written
(`Codec.EncInv.text`); the last step is FINISH (`runStep_enc_last`). -/
theorem encodeRunsToItsResult : Obligations.EncodeRunsToItsResult := by
  intro W s len cap hb hroom
  obtain ⟨v, hrun, hbusy, hinv, hcount, hlen, hreq, hout, hcells, hturns⟩ := encode_run s hroom le_rfl
  obtain ⟨hfinish, hin, hall⟩ := runStep_enc_last hbusy hinv (by omega)
  have htext := hinv.text hbusy hall
  have hinput : v.input .encIbuf len.toNat = s.input .encIbuf len.toNat := by
    obtain ⟨-, hibuf, -⟩ := hout
    exact input_congr (sp := .encIbuf) hibuf _
  rw [hlen, hinput] at htext
  refine ⟨s.withEnc (encStart .encode len cap), v.withEnc (encFinish v.enc), exec_enc_fields rfl hb rfl rfl, fun k hk => ?_,
    (hrun 1).trans (runBlock_succ 0 hbusy hfinish), hin.trans hlen, hall.trans hreq, rfl, rfl,
    (count_toNat _).trans (hall.trans hreq), ?_, fun a ha => ?_, hout, hturns⟩
  · obtain ⟨u, hrun, hbusy, hinv, hcount, hlen, hreq, -⟩ := encode_run s hroom hk
    have hprogress := hinv.progress
    rw [hlen, hreq] at hprogress
    exact ⟨u, hrun 0, hbusy, by omega⟩
  · rw [← htext, Codec.cells, Codec.withEnc_readCell]
    rfl
  · rw [Codec.withEnc_readCell, hcells a ha]

end Sys2Proof.Machine

/-! The decoder: its steps one by one, the transitions of its `STATE` and `PHASE`, its loop as the regrouping of the bit stream,
whole DECODEs, and the round trip through both blocks (spec/42_decoder.md). -/

namespace Sys2Proof.Machine

variable {W : Nat}

/-! ### Acceptance and the steps one by one -/

/-- Settles O15: the accepting step (`exec_dec_fields`) leaves the registers `decStart`, for either operation. -/
theorem datalenAndDecodeAreAccepted : Obligations.DatalenAndDecodeAreAccepted := by
  intro W s len cap hb
  refine ⟨decStart .datalen len cap, decStart .decode len cap, exec_dec_fields rfl hb rfl rfl, rfl,
    exec_dec_fields rfl hb rfl rfl, rfl, fun r hr => ?_⟩
  simp only [List.mem_cons, List.not_mem_nil, or_false] at hr
  obtain rfl | rfl := hr <;> exact ⟨rfl, rfl, rfl, rfl, rfl, rfl, rfl, rfl, rfl, rfl⟩

/-- A step in which a `BUSY` block has the turn is its running step, with that turn taken. -/
theorem step_of_runStep {s t : Codec W} {b : Block} {ts : List (Turn W)} (hts : s.turns = .block b :: ts)
    (hb : s.busy b = true) (h : runStep b s = .next ⟨W, t⟩) : step ⟨W, s⟩ = .next ⟨W, t.withTurns ts⟩ := by
  rw [step_block hts, blockTurn_busy (by simpa using hb), runStep_withTurns ts h]

theorem decScan_of_pad {r : DecRegs W} {c : Byte} (h : classify c = .pad) :
    decScan r c = { r with inIdx := r.inIdx + 1 } := by
  simp [decScan, h]

theorem decScan_of_sym {r : DecRegs W} {c : Byte} {v : SymVal} (h : classify c = .sym v) :
    decScan r c = { r with k := r.k + 1, inIdx := r.inIdx + 1 } := by
  simp [decScan, h]

/-- Settles O23: the step is a SCAN (`runStep_scan`), with one lemma for each class of the code unit. -/
theorem scanStep : Obligations.ScanStep := by
  intro W s ts hts hb hphase hi
  have hcount : (s.dec.inIdx + 1).toNat = s.dec.inIdx.toNat + 1 := toNat_succ_of_lt hi
  refine ⟨decScan s.dec (s.readCell .decIbuf s.dec.inIdx.toNat),
    step_of_runStep hts hb (runStep_scan (decSelect_of ⟨hphase, hi⟩)), decScan_of_invalid, fun hc => ?_, fun v hc => ?_⟩
  · rw [decScan_of_pad hc]
    exact ⟨rfl, hcount⟩
  · rw [decScan_of_sym hc]
    exact ⟨rfl, hcount⟩

/-- SCAN_END writes `REQ` whatever its outcome, and without loss. -/
theorem decScanEnd_req (r : DecRegs W) : (decScanEnd r).req.toNat = dataLen r.k.toNat := by
  have hreq : (decScanEnd r).req = BitVec.ofNat (W + 1) (dataLen r.k.toNat) := by
    unfold decScanEnd
    cases r.op
    case datalen => rfl
    case decode => dsimp only; split <;> rfl
  rw [hreq, dataLen_toNat]

theorem decScanEnd_of_datalen {r : DecRegs W} (h : r.op = .datalen) :
    decScanEnd r = { r with req := (decScanEnd r).req, status := ⟨.done, .noError, (decScanEnd r).req⟩ } := by
  simp [decScanEnd, h, finish]

theorem decScanEnd_of_cap_lt {r : DecRegs W} (h : r.op = .decode) (hcap : r.cap.toNat < dataLen r.k.toNat) :
    decScanEnd r = { r with req := (decScanEnd r).req, status := ⟨.error, .insufficientOutputCapacity, 0⟩ } := by
  simp [decScanEnd, h, hcap, raise, Exn.code]

theorem decScanEnd_of_le_cap {r : DecRegs W} (h : r.op = .decode) (hcap : dataLen r.k.toNat ≤ r.cap.toNat) :
    decScanEnd r =
      { r with req := (decScanEnd r).req, phase := .run, acc := 0, bitsrem := 8, inIdx := 0, outIdx := 0 } := by
  simp [decScanEnd, h, Nat.not_lt.2 hcap]

/-- Settles O24: the step is a SCAN_END (`runStep_scanEnd`), which writes `REQ` (`decScanEnd_req`), with one lemma for each
outcome. -/
theorem scanEndStep : Obligations.ScanEndStep := by
  intro W s ts hts hb hphase hi
  exact ⟨decScanEnd s.dec, step_of_runStep hts hb (runStep_scanEnd (decSelect_of ⟨hphase, hi⟩)), decScanEnd_req s.dec,
    decScanEnd_of_datalen, decScanEnd_of_cap_lt, decScanEnd_of_le_cap⟩

theorem decRun_of_invalid {r : DecRegs W} {c : Byte} (h : classify c = .invalid) :
    decRun r c = ({ r with status := raise .invalidCharacter }, none) := by
  simp [decRun, h]

theorem decRun_of_pad {r : DecRegs W} {c : Byte} (h : classify c = .pad) :
    decRun r c = ({ r with inIdx := r.inIdx + 1 }, none) := by
  simp [decRun, h]

theorem decRun_of_sym {r : DecRegs W} {c : Byte} {v : SymVal} (h : classify c = .sym v) :
    decRun r c = decRunSym r v := by
  simp [decRun, h]

/-- A symbol that completes no byte only joins the bits kept. -/
theorem decRunSym_of_incomplete {r : DecRegs W} (v : SymVal) (h : 5 < r.bitsrem.toNat) :
    decRunSym r v =
      ({ r with
          acc := decPushSymbol r.acc v, bitsrem := BitVec.ofNat 4 (decT r.bitsrem).toNat, inIdx := r.inIdx + 1 },
        none) := by
  have ht : 0 < decT r.bitsrem := by unfold decT; omega
  simp [decRunSym, ht]

/-- A byte that has no room is not written (R118). -/
theorem decRunSym_of_full {r : DecRegs W} (v : SymVal) (h : r.bitsrem.toNat ≤ 5) (hcap : r.cap.toNat ≤ r.outIdx.toNat) :
    decRunSym r v = ({ r with status := raise .boundsFault }, none) := by
  have ht : ¬ 0 < decT r.bitsrem := by unfold decT; omega
  simp [decRunSym, ht, hcap]

/-- A byte that has room is written, and the bits below it are kept. -/
theorem decRunSym_of_room {r : DecRegs W} (v : SymVal) (h : r.bitsrem.toNat ≤ 5) (hcap : r.outIdx.toNat < r.cap.toNat) :
    decRunSym r v =
      ({ r with
          outIdx := r.outIdx + 1, acc := decLowBits (decPushSymbol r.acc v) (decT r.bitsrem),
          bitsrem := BitVec.ofNat 4 (decT r.bitsrem + 8).toNat, inIdx := r.inIdx + 1 },
        some ⟨r.outIdx, decTopByte (decPushSymbol r.acc v) (decT r.bitsrem)⟩) := by
  have ht : ¬ 0 < decT r.bitsrem := by unfold decT; omega
  simp [decRunSym, ht, Nat.not_le.2 hcap]

/-- `BITSREM` after a symbol that completes no byte. -/
theorem bitsrem_of_incomplete {b : BitVec 4} (h : 5 < b.toNat) : (BitVec.ofNat 4 (decT b).toNat).toNat = b.toNat - 5 := by
  simp only [decT, BitVec.toNat_ofNat]
  omega

/-- `BITSREM` after a symbol that completes a byte. -/
theorem bitsrem_of_complete {b : BitVec 4} (h : b.toNat ≤ 5) :
    (BitVec.ofNat 4 (decT b + 8).toNat).toNat = b.toNat + 3 := by
  simp only [decT, BitVec.toNat_ofNat]
  omega

/-- How many bits of a symbol that completes a byte stay below the byte. -/
theorem neg_decT_of_complete {b : BitVec 4} (h : b.toNat ≤ 5) : (-decT b).toNat = 5 - b.toNat := by
  unfold decT
  omega

theorem decTopByte_toNat (a : Acc) (t : Int) : (decTopByte a t).toNat = a.toNat / 2 ^ (-t).toNat % 256 := by
  rw [decTopByte, BitVec.toNat_setWidth, BitVec.toNat_ushiftRight, Nat.shiftRight_eq_div_pow]

/-- A running step that is a RUN changes DEC's registers and stores the byte completed, if any. -/
theorem runStep_run {s : Codec W} (h : decSelect s.dec = some .run) :
    runStep .dec s =
      .next ⟨W, (s.withDec (decRun s.dec (s.readCell .decIbuf s.dec.inIdx.toNat)).1).applyWrite .decObuf
        (decRun s.dec (s.readCell .decIbuf s.dec.inIdx.toNat)).2⟩ := by
  rw [runStep, decRunStep, h]
  rfl

/-- A running step that is a RUN_END changes DEC's registers and nothing else. -/
theorem runStep_runEnd {s : Codec W} (h : decSelect s.dec = some .runEnd) :
    runStep .dec s = .next ⟨W, s.withDec (decRunEnd s.dec)⟩ := by
  rw [runStep, decRunStep, h]
  rfl

/-- A step in the RUN pass with code units left: DEC's registers after `decRun`, and the store that comes with them. -/
theorem step_run {s : Codec W} {ts : List (Turn W)} (hts : s.turns = .block .dec :: ts) (hb : s.busy .dec = true)
    (hphase : s.dec.phase = .run) (hi : s.dec.inIdx.toNat < s.dec.len.toNat) :
    ∃ t : Codec W, step ⟨W, s⟩ = .next ⟨W, t⟩ ∧ sameOutside .dec s t ∧ t.turns = ts ∧
      t.dec = (decRun s.dec (s.readCell .decIbuf s.dec.inIdx.toNat)).1 ∧
      ((decRun s.dec (s.readCell .decIbuf s.dec.inIdx.toNat)).2 = none → sameBuffers s t) ∧
      (∀ w, (decRun s.dec (s.readCell .decIbuf s.dec.inIdx.toNat)).2 = some w →
        t.readCell .decObuf w.addr.toNat = w.data ∧ sameCellsExcept .decObuf (· = w.addr.toNat) s t) := by
  have hsel : decSelect s.dec = some .run := decSelect_of ⟨hphase, hi⟩
  have hstep := step_of_runStep hts hb (runStep_run hsel)
  have hport : s.obPort .dec = (decRun s.dec (s.readCell .decIbuf s.dec.inIdx.toNat)).2 := Codec.obPort_dec hb hsel
  obtain ⟨hturns, hnone, hsome, hout, -⟩ := blockTurnStoresWhatThePortShows W s _ .dec ts hts hstep
  exact ⟨_, hstep, hout hb, hturns, by simp, fun h => hnone (hport.trans h), fun w h => hsome w (hport.trans h)⟩

/-- Settles O25: the step is a RUN (`step_run`), with one lemma for each of its five cases. -/
theorem runStepInFiveCases : Obligations.RunStep := by
  intro W s ts hts hb hphase hi
  obtain ⟨t, hstep, hout, hturns, hdec, hnone, hsome⟩ := step_run hts hb hphase hi
  refine ⟨t, hstep, hout, hturns, fun hc => ?invalid, fun hc => ?pad, fun v hc =>
    ⟨fun hbits => ?incomplete, fun hbits hcap => ?full, fun hbits hcap => ?room⟩⟩
  case invalid =>
    rw [decRun_of_invalid hc] at hdec hnone
    exact ⟨hdec, hnone rfl⟩
  case pad =>
    rw [decRun_of_pad hc] at hdec hnone
    exact ⟨hdec, hnone rfl⟩
  case incomplete =>
    rw [decRun_of_sym hc, decRunSym_of_incomplete v hbits] at hdec hnone
    rw [hdec]
    exact ⟨rfl, decPushSymbol_toNat .., bitsrem_of_incomplete hbits, hnone rfl⟩
  case full =>
    rw [decRun_of_sym hc, decRunSym_of_full v hbits hcap] at hdec hnone
    exact ⟨hdec, hnone rfl⟩
  case room =>
    rw [decRun_of_sym hc, decRunSym_of_room v hbits hcap] at hdec hsome
    obtain ⟨hread, hother⟩ := hsome _ rfl
    rw [hdec, hread, decTopByte_toNat, decPushSymbol_toNat, neg_decT_of_complete hbits]
    refine ⟨rfl, ?_, bitsrem_of_complete hbits, rfl, hother⟩
    rw [decLowBits_toNat _ _ (by unfold decT; omega), decPushSymbol_toNat, neg_decT_of_complete hbits]

/-- Settles O26: the step is a RUN_END (`runStep_runEnd`), and `RESULT` holds `OUT_IDX` without loss (`count_toNat`). -/
theorem runEndStep : Obligations.RunEndStep := by
  intro W s ts hts hb hphase hi
  exact ⟨decRunEnd s.dec, step_of_runStep hts hb (runStep_runEnd (decSelect_of ⟨hphase, hi⟩)), rfl,
    count_toNat s.dec.outIdx, rfl, rfl⟩

/-! ### The transitions of DEC's `STATE` and `PHASE` -/

/-- What a SCAN leaves: the pass goes on, or the code unit was `INVALID` (R128). -/
theorem decScan_transitions (r : DecRegs W) (c : Byte) :
    ((decScan r c).status = r.status ∧ (decScan r c).phase = r.phase) ∨
      (decScan r c).status = raise .invalidCharacter := by
  cases hc : classify c with
  | invalid => exact .inr (by rw [decScan_of_invalid hc])
  | pad => exact .inl (by rw [decScan_of_pad hc]; exact ⟨rfl, rfl⟩)
  | sym v => exact .inl (by rw [decScan_of_sym hc]; exact ⟨rfl, rfl⟩)

/-- What a SCAN_END leaves: DATALEN is done, DECODE has failed or is in the RUN pass, as its `cap` says (R128). -/
theorem decScanEnd_transitions (r : DecRegs W) :
    ((decScanEnd r).op = .datalen ∧ (decScanEnd r).status.state = .done) ∨
      ((decScanEnd r).op = .decode ∧ (decScanEnd r).status = raise .insufficientOutputCapacity) ∨
      ((decScanEnd r).op = .decode ∧ (decScanEnd r).status = r.status ∧ (decScanEnd r).phase = .run) := by
  cases hop : r.op with
  | datalen => exact .inl (by rw [decScanEnd_of_datalen hop]; exact ⟨hop, rfl⟩)
  | decode =>
    obtain hcap | hcap := Nat.lt_or_ge r.cap.toNat (dataLen r.k.toNat)
    · exact .inr (.inl (by rw [decScanEnd_of_cap_lt hop hcap]; exact ⟨hop, rfl⟩))
    · exact .inr (.inr (by rw [decScanEnd_of_le_cap hop hcap]; exact ⟨hop, rfl, rfl⟩))

/-- What a RUN leaves: the pass goes on, or one of its two raises (R117, R118, R128). -/
theorem decRun_transitions (r : DecRegs W) (c : Byte) :
    ((decRun r c).1.status = r.status ∧ (decRun r c).1.phase = r.phase) ∨
      (decRun r c).1.status = raise .invalidCharacter ∨ (decRun r c).1.status = raise .boundsFault := by
  cases hc : classify c with
  | invalid => exact .inr (.inl (by rw [decRun_of_invalid hc]))
  | pad => exact .inl (by rw [decRun_of_pad hc]; exact ⟨rfl, rfl⟩)
  | sym v =>
    rw [decRun_of_sym hc]
    obtain hbits | hbits := Nat.lt_or_ge 5 r.bitsrem.toNat
    · exact .inl (by rw [decRunSym_of_incomplete v hbits]; exact ⟨rfl, rfl⟩)
    · obtain hcap | hcap := Nat.lt_or_ge r.outIdx.toNat r.cap.toNat
      · exact .inl (by rw [decRunSym_of_room v hbits hcap]; exact ⟨rfl, rfl⟩)
      · exact .inr (.inr (by rw [decRunSym_of_full v hbits hcap]))

/-- The rows of R128 that start in `BUSY`, from the registers `r` to the registers `r'`. -/
def DecRow (r r' : DecRegs W) : Prop :=
  (r.phase = .scan ∧
    ((r'.status.state = .busy ∧ r'.phase = .scan) ∨
      (r'.status.state = .error ∧ r'.status.err = .invalidCharacter) ∨
      (r'.op = .datalen ∧ r'.status.state = .done) ∨
      (r'.op = .decode ∧ r'.status.state = .error ∧ r'.status.err = .insufficientOutputCapacity) ∨
      (r'.op = .decode ∧ r'.status.state = .busy ∧ r'.phase = .run))) ∨
  (r.phase = .run ∧
    ((r'.status.state = .busy ∧ r'.phase = .run) ∨
      (r'.status.state = .error ∧ r'.status.err = .invalidCharacter) ∨
      (r'.status.state = .error ∧ r'.status.err = .boundsFault) ∨
      r'.status.state = .done))

/-- The step selected makes a transition of the table, whatever its read port answers. -/
theorem decNext_row {r : DecRegs W} {k : DecStep} (hb : r.status.state = .busy) (hk : decSelect r = some k) (rdata : Byte) :
    DecRow r (decNext r rdata k).1 := by
  have hsel := decSelect_cases hk
  cases k with
  | scan =>
    obtain ⟨hscan, -⟩ := hsel
    refine .inl ⟨hscan, ?_⟩
    obtain ⟨hstatus, hphase⟩ | hraise := decScan_transitions r rdata
    · exact .inl ⟨(congrArg Status.state hstatus).trans hb, hphase.trans hscan⟩
    · exact .inr (.inl ⟨congrArg Status.state hraise, congrArg Status.err hraise⟩)
  | scanEnd =>
    obtain ⟨hscan, -⟩ := hsel
    refine .inl ⟨hscan, .inr (.inr ?_)⟩
    obtain hdone | ⟨hop, hraise⟩ | ⟨hop, hstatus, hphase⟩ := decScanEnd_transitions r
    · exact .inl hdone
    · exact .inr (.inl ⟨hop, congrArg Status.state hraise, congrArg Status.err hraise⟩)
    · exact .inr (.inr ⟨hop, (congrArg Status.state hstatus).trans hb, hphase⟩)
  | run =>
    obtain ⟨hrun, -⟩ := hsel
    refine .inr ⟨hrun, ?_⟩
    obtain ⟨hstatus, hphase⟩ | hraise | hraise := decRun_transitions r rdata
    · exact .inl ⟨(congrArg Status.state hstatus).trans hb, hphase.trans hrun⟩
    · exact .inr (.inl ⟨congrArg Status.state hraise, congrArg Status.err hraise⟩)
    · exact .inr (.inr (.inl ⟨congrArg Status.state hraise, congrArg Status.err hraise⟩))
  | runEnd =>
    obtain ⟨hrun, -⟩ := hsel
    exact .inr ⟨hrun, .inr (.inr (.inr rfl))⟩

/-- The turn of ENC leaves DEC's registers alone. -/
theorem blockTurn_enc_dec {s t : Codec W} (h : blockTurn .enc s = .next ⟨W, t⟩) : t.dec = s.dec := by
  cases hb : s.busy .enc with
  | true =>
    rw [blockTurn_busy hb] at h
    obtain ⟨hdec, -⟩ := runStep_sameOutside h
    exact hdec
  | false =>
    obtain ⟨-, -, hdec, -⟩ := blockTurn_frame_of_not_busy hb h
    simpa using hdec

/-- Every change of DEC's registers in its own turn is an acceptance or a row of R128. -/
theorem blockTurn_dec_transitions {s t : Codec W} (h : blockTurn .dec s = .next ⟨W, t⟩) :
    t.dec = s.dec ∨ (s.busy .dec = false ∧ t.dec.status.state = .busy ∧ t.dec.phase = .scan) ∨
      (s.busy .dec = true ∧ DecRow s.dec t.dec) := by
  obtain ⟨hb, h⟩ | ⟨-, -, h⟩ | ⟨hb, w, -, h⟩ := blockTurn_next h
  · obtain ⟨k, hk, e⟩ := decRunStep_next h
    cases e
    rw [Codec.applyWrite_dec, Codec.withDec_dec]
    exact .inr (.inr ⟨hb, decNext_row ((s.busy_iff _).1 hb) hk _⟩)
  · cases h
    exact .inl rfl
  · rw [exec_dec (decodeCmd_block _ w) (by simpa using hb)] at h
    cases h
    exact .inr (.inl ⟨hb, rfl, rfl⟩)

/-- Of all host moves only the reset of DEC changes its registers. -/
theorem hostMove_dec {m : HostMove W} {s t : Codec W} (h : hostMove m s = .next ⟨W, t⟩) :
    t.dec = s.dec ∨ (m = .reset .dec ∧ t.dec = DecRegs.reset W) := by
  obtain e | ⟨b, c, e⟩ | ⟨b, hm, e⟩ | ⟨sp, i, v, -, e⟩ := hostMove_next h <;> cases e
  · exact .inl rfl
  · exact .inl (s.setCmd_dec b c)
  · cases b with
    | enc => exact .inl rfl
    | dec => exact .inr ⟨hm, rfl⟩
  · exact .inl (s.setBuf_dec sp _)

/-- Settles O39: DEC's registers change only in its own turn (`blockTurn_dec_transitions`) or by the host's reset
(`hostMove_dec`). -/
theorem decoderStateTransitions : Obligations.DecoderStateTransitions := by
  intro W s m hstep
  obtain ⟨t, rfl⟩ := step_width hstep
  refine ⟨t, rfl, ?_⟩
  obtain ⟨ts, e | ⟨b, h⟩ | ⟨m, hts, h⟩⟩ := step_next hstep
  · cases e
    exact .inl rfl
  · cases b with
    | enc => exact .inl (by simpa using blockTurn_enc_dec h)
    | dec =>
      obtain hsame | haccept | ⟨hb, hscan | hrun⟩ := blockTurn_dec_transitions h
      · exact .inl hsame
      · exact .inr (.inr (.inl (by simpa using haccept)))
      · exact .inr (.inr (.inr (.inl ⟨by simpa using hb, hscan⟩)))
      · exact .inr (.inr (.inr (.inr ⟨by simpa using hb, hrun⟩)))
  · obtain hsame | ⟨rfl, hreset⟩ := hostMove_dec h
    · exact .inl hsame
    · exact .inr (.inl ⟨hreset, ts, hts⟩)

/-- Settles O52: under the invariant a RUN leaves the status alone (`decRun_inv`); the other step of the pass is RUN_END, which
ends in `DONE`. -/
theorem runPassNeverRaises : Obligations.RunPassNeverRaises := by
  intro W s t ts hinv hb hphase hts hstep
  have hstate := (s.busy_iff .dec).1 hb
  rw [step_block hts, blockTurn_busy (by simpa using hb)] at hstep
  obtain ⟨k, hk, e⟩ := decRunStep_next hstep
  cases e
  rw [Codec.applyWrite_dec, Codec.withDec_dec, Codec.withTurns_dec, Codec.withTurns_ibRdata]
  have hsel := decSelect_cases hk
  cases k with
  | scan | scanEnd =>
    obtain ⟨hscan, -⟩ := hsel
    exact absurd (hphase.symm.trans hscan) (by decide)
  | run =>
    obtain ⟨-, hi⟩ := hsel
    obtain ⟨-, -, -, -, -, hstatus, -⟩ :=
      decRun_inv hinv.dec (input_length ..) hstate hphase hi (s.decIbuf_rdata (k := .run) hi rfl)
    rw [decNext, hstatus, show s.dec.status.state = .busy from hstate]
    decide
  | runEnd => simp [decNext, decRunEnd, finish]

/-! ### The decoder's loop -/

theorem allValid_cons {c : Byte} {cs : List Byte} : allValid (c :: cs) ↔ classify c ≠ .invalid ∧ allValid cs :=
  List.forall_mem_cons

/-- The loop of R111 fails at the first `INVALID` code unit, whatever it holds. -/
theorem decLoop_of_not_allValid {cs : List Byte} (h : ¬ allValid cs) (acc : Nat) (rem : Int) : decLoop acc rem cs = none := by
  induction cs generalizing acc rem with
  | nil => simp [allValid] at h
  | cons c cs ih =>
    cases hc : classify c with
    | invalid => simp [decLoop, hc]
    | pad => simpa [decLoop, hc] using ih (by simpa [allValid_cons, hc] using h) acc rem
    | sym v =>
      have htail := ih (by simpa [allValid_cons, hc] using h)
      simp [decLoop, hc, htail]

/-- The `n` bytes of the symbol stream from byte `o` on (R66). -/
def bytesFrom (vs : List SymVal) (o n : Nat) : List Byte := (List.range' o n).map (streamByte vs)

theorem bytesFrom_succ (vs : List SymVal) (o n : Nat) :
    bytesFrom vs o (n + 1) = streamByte vs o :: bytesFrom vs (o + 1) n := by
  rw [bytesFrom, List.range'_succ, List.map_cons, bytesFrom]

/-- What the loop of R111 keeps: after `o` bytes, `acc` is the number of the `n` stream bits not yet emitted. -/
def DecHolds (vs : List SymVal) (o acc n : Nat) : Prop := acc = bitsVal (symBit vs) (8 * o) n

/-- The symbol read next goes below the bits held. -/
theorem DecHolds.push {vs : List SymVal} {o acc n j : Nat} {v : SymVal} (h : DecHolds vs o acc n)
    (hpos : 5 * j = 8 * o + n) (hv : vs.getD j 0 = v) : DecHolds vs o (acc <<< 5 ||| v.toNat) (n + 5) := by
  unfold DecHolds at *
  rw [bitsVal_add, ← h, ← hpos, symBit_sym, hv, ← Nat.shiftLeft_add_eq_or_of_lt v.isLt, Nat.shiftLeft_eq]

/-- With eight bits held, the oldest eight are the next byte, and the others stay held. -/
theorem DecHolds.emit {vs : List SymVal} {o acc n : Nat} (h : DecHolds vs o acc (8 + n)) :
    BitVec.ofNat 8 (acc >>> n) = streamByte vs o ∧ DecHolds vs (o + 1) (acc &&& ((1 <<< n) - 1)) n := by
  have hlow := bitsVal_lt (symBit vs) (8 * o + 8) n
  unfold DecHolds at *
  rw [bitsVal_add, Nat.mul_comm] at h
  constructor
  · rw [streamByte, h, Nat.shiftRight_eq_div_pow, Nat.mul_add_div (by positivity), Nat.div_eq_of_lt hlow, Nat.add_zero]
  · rw [Nat.one_shiftLeft, Nat.and_two_pow_sub_one_eq_mod, h, Nat.mul_add_mod, Nat.mod_eq_of_lt hlow]
    rfl

theorem decLoop_pad {c : Byte} (hc : classify c = .pad) (acc : Nat) (rem : Int) (cs : List Byte) :
    decLoop acc rem (c :: cs) = decLoop acc rem cs := by
  simp [decLoop, hc]

/-- A symbol that leaves fewer than eight bits held emits nothing. -/
theorem decLoop_sym_of_lt {c : Byte} {v : SymVal} (hc : classify c = .sym v) {n : Nat} (hn : n < 3) (acc : Nat)
    (cs : List Byte) : decLoop acc (8 - n) (c :: cs) = decLoop (acc <<< 5 ||| v.toNat) (8 - (n + 5 : Nat)) cs := by
  have hrem : (8 - n - 5 : Int) = 8 - (n + 5 : Nat) := by omega
  have hkeep : ¬ (8 - (n + 5 : Nat) : Int) ≤ 0 := by omega
  simp only [decLoop, hc, hrem, if_neg hkeep]

/-- A symbol that makes eight bits or more emits the oldest eight. -/
theorem decLoop_sym_of_le {c : Byte} {v : SymVal} (hc : classify c = .sym v) (n acc : Nat) (cs : List Byte) :
    decLoop acc (8 - (3 + n : Nat)) (c :: cs) =
      (decLoop ((acc <<< 5 ||| v.toNat) &&& ((1 <<< n) - 1)) (8 - n) cs).map
        (BitVec.ofNat 8 ((acc <<< 5 ||| v.toNat) >>> n) :: ·) := by
  have hrem : (8 - (3 + n : Nat) - 5 : Int) = -n := by omega
  have hnext : (-n + 8 : Int) = 8 - n := by omega
  have hemit : (-n : Int) ≤ 0 := by omega
  simp only [decLoop, hc, hrem, if_pos hemit, hnext, neg_neg, Int.toNat_natCast]

theorem symCount_append (a b : List Byte) : symCount (a ++ b) = symCount a + symCount b := by
  simp [symCount, symValues_append]

/-- The symbol after `pre` is the next symbol value of the text. -/
theorem symValues_getD_append {pre cs : List Byte} {c : Byte} {v : SymVal} (hc : classify c = .sym v) :
    (symValues (pre ++ c :: cs)).getD (symCount pre) 0 = v := by
  have htext := (symValues_getD (pre ++ c :: cs) (i := pre.length) (v := v) (by simp) (by simpa using hc)).1
  simpa using htext

/-- The loop, with the code units of `pre` read, `o` bytes emitted and `n` bits held, emits the `m` bytes that are left. -/
theorem decLoop_eq {cs pre : List Byte} {acc n o m : Nat} (hvalid : allValid cs) (hn : n < 8)
    (hpos : 5 * symCount pre = 8 * o + n) (hm : o + m = dataLenOf (pre ++ cs))
    (h : DecHolds (symValues (pre ++ cs)) o acc n) :
    decLoop acc (8 - n) cs = some (bytesFrom (symValues (pre ++ cs)) o m) := by
  induction cs generalizing pre acc n o m with
  | nil =>
    rw [List.append_nil, dataLenOf, dataLen] at hm
    obtain rfl : m = 0 := by omega
    rfl
  | cons c cs ih =>
    obtain ⟨hne, htail⟩ := allValid_cons.1 hvalid
    have happ : pre ++ c :: cs = (pre ++ [c]) ++ cs := by simp
    have hread := symCount_append pre [c]
    cases hc : classify c with
    | invalid => exact absurd hc hne
    | pad =>
      rw [symCount_pad hc] at hread
      rw [happ] at hm h ⊢
      rw [decLoop_pad hc, ih htail hn (by omega) hm h]
    | sym v =>
      rw [symCount_sym hc] at hread
      have hpush := h.push hpos (symValues_getD_append hc)
      rw [happ] at hm hpush ⊢
      obtain hlt | hle := Nat.lt_or_ge n 3
      · rw [decLoop_sym_of_lt hc hlt, ih htail (by omega) (by omega) hm hpush]
      · obtain ⟨n, rfl⟩ := Nat.exists_eq_add_of_le hle
        obtain ⟨hbyte, hkeep⟩ := DecHolds.emit (n := n) ((by omega : 3 + n + 5 = 8 + n) ▸ hpush)
        have htotal := symCount_append (pre ++ [c]) cs
        have hleft : o + 1 ≤ dataLenOf (pre ++ [c] ++ cs) := by
          rw [dataLenOf, dataLen]
          omega
        obtain ⟨m, rfl⟩ : ∃ k, m = k + 1 := Nat.exists_eq_add_of_le' (by omega : 1 ≤ m)
        rw [decLoop_sym_of_le hc, ih (m := m) htail (by omega) (by omega) (by omega) hkeep, bytesFrom_succ, hbyte]
        rfl

/-- Settles O33: on a valid text the loop starts with nothing read, held or emitted (`decLoop_eq`); on any other it fails
(`decLoop_of_not_allValid`). -/
theorem decoderLoopIsTheBitStream : Obligations.DecoderLoopIsTheBitStream := by
  intro cs
  refine ⟨fun hvalid => ?_, fun hinvalid => decLoop_of_not_allValid hinvalid 0 8⟩
  rw [List.range_eq_range']
  exact decLoop_eq (pre := []) (n := 0) (o := 0) hvalid (by omega) rfl (Nat.zero_add _) rfl

/-! ### Padding -/

theorem classify_eq_pad {c : Byte} : classify c = .pad ↔ c = padChar := by
  constructor
  · intro h
    by_contra hne
    unfold classify at h
    simp only [if_neg hne] at h
    split at h
    · cases h
    · split at h <;> cases h
  · rintro rfl
    exact classify_padChar

/-- The symbols of a text are those that are left when its `=` are taken out. -/
theorem symValues_filter_padChar (cs : List Byte) : symValues (cs.filter (· != padChar)) = symValues cs := by
  rw [symValues, List.filterMap_filter, symValues]
  refine List.filterMap_congr fun c _ => ?_
  by_cases hpad : c = padChar
  · simp [hpad, classify_padChar]
  · simp [hpad]

/-- Taking out its `=` does not make a text valid or invalid. -/
theorem allValid_filter_padChar (cs : List Byte) : allValid (cs.filter (· != padChar)) ↔ allValid cs := by
  refine ⟨fun h c hc => ?_, fun h c hc => h c (List.mem_filter.1 hc).1⟩
  by_cases hpad : c = padChar
  · rw [hpad, classify_padChar]
    decide
  · exact h c (List.mem_filter.2 ⟨hc, by simpa using hpad⟩)

/-- Settles O34: the data length and the loop depend on a text by its symbols and its validity alone
(`decoderLoopIsTheBitStream`), which do not see the `=` (`symValues_filter_padChar`, `allValid_filter_padChar`). -/
theorem paddingChangesNothing : Obligations.PaddingChangesNothing := by
  intro cs ds h
  have hsym : symValues cs = symValues ds := by rw [← symValues_filter_padChar cs, h, symValues_filter_padChar]
  have hlen : dataLenOf cs = dataLenOf ds := by simp only [dataLenOf, symCount, hsym]
  have hvalid : allValid cs ↔ allValid ds := by rw [← allValid_filter_padChar cs, h, allValid_filter_padChar]
  refine ⟨hlen, ?_⟩
  obtain ⟨hcs, hcsFail⟩ := decoderLoopIsTheBitStream cs
  obtain ⟨hds, hdsFail⟩ := decoderLoopIsTheBitStream ds
  by_cases hv : allValid cs
  · rw [hcs hv, hds (hvalid.1 hv), hlen, hsym]
  · rw [hcsFail hv, hdsFail (mt hvalid.2 hv)]

/-! ### A whole DECODE -/

/-- `K` in SCAN_END is the number of symbols of the text (R114). -/
theorem dataLen_decScanned (s : Codec W) (op : DecOp) (len cap : Idx W) :
    dataLen (decScanned op len cap (s.input .decIbuf len.toNat)).k.toNat = dataLenOf (s.input .decIbuf len.toNat) := by
  rw [decScanned_k op cap (input_length ..).le, dataLenOf]

/-- Settles O31: the SCAN steps are `runBlock_scan_busy`; the last step is a SCAN_END (`runBlock_scanEnd`) that finds too small a
`cap` (`decScanEnd_of_cap_lt`), and only DEC's registers have changed (`withDec_frame`). -/
theorem tooSmallAnOutputFailsAtomically : Obligations.TooSmallAnOutputFailsAtomically := by
  intro W s len cap hb hvalid hcap
  refine ⟨_, _, exec_dec_fields rfl hb rfl rfl, fun k hk => runBlock_scan_busy hk (allValid_input_of_le hk hvalid),
    runBlock_scanEnd hvalid, ?_, withDec_frame s _⟩
  rw [← dataLen_decScanned s .decode len cap] at hcap
  exact congrArg DecRegs.status (decScanEnd_of_cap_lt rfl hcap)

/-- What holds of a state `v` in the RUN pass of a DECODE over the input of `s`, after `n` RUN steps. -/
structure InRunPass (s : Codec W) (len : Idx W) (n : Nat) (v : Codec W) : Prop where
  busy : v.busy .dec = true
  phase : v.dec.phase = .run
  inv : v.DecInv
  len_eq : v.dec.len = len
  inIdx_eq : v.dec.inIdx.toNat = n
  req_eq : v.dec.req.toNat = dataLenOf (s.input .decIbuf len.toNat)
  outside : sameOutside .dec s v
  cells : sameCellsExcept .decObuf (· < dataLenOf (s.input .decIbuf len.toNat)) s v
  turns : v.turns = s.turns

section RunPass

variable {s v : Codec W} {len cap : Idx W} {n : Nat}

/-- The SCAN pass over a valid text keeps the invariant. -/
theorem decInv_decScanned (op : DecOp) (hn : n ≤ len.toNat) (hvalid : allValid (s.input .decIbuf n)) :
    (s.withDec (decScanned op len cap (s.input .decIbuf n))).DecInv := by
  induction n with
  | zero => exact decStart_inv op len cap _ _
  | succ n ih =>
    have hstep := runStep_decScanned (s := s) (op := op) (cap := cap) hn
    rw [decScan_decScanned (allValid_input.1 hvalid n n.lt_succ_self), ← input_succ] at hstep
    exact decRunStep_decInv (busy_decScanned ..) (ih (Nat.le_of_succ_le hn) (allValid_input_of_le n.le_succ hvalid)) hstep

/-- The running step of DEC with the whole text scanned is SCAN_END. -/
theorem runStep_decScanned_end (s : Codec W) (op : DecOp) (len cap : Idx W) :
    runStep .dec (s.withDec (decScanned op len cap (s.input .decIbuf len.toNat))) =
      .next ⟨W, s.withDec (decScanEnd (decScanned op len cap (s.input .decIbuf len.toNat)))⟩ := by
  have hlen := input_length s .decIbuf len.toNat
  have hsel := decSelect_decScanned op cap hlen.le
  rw [hlen, decStepAt_self] at hsel
  exact runStep_scanEnd hsel

/-- A DECODE with room for its output enters the RUN pass in SCAN_END (R114). -/
theorem inRunPass_decScanEnd (hvalid : allValid (s.input .decIbuf len.toNat))
    (hroom : dataLenOf (s.input .decIbuf len.toNat) ≤ cap.toNat) :
    InRunPass s len 0 (s.withDec (decScanEnd (decScanned .decode len cap (s.input .decIbuf len.toNat)))) := by
  have hinv := decRunStep_decInv (busy_decScanned ..) (decInv_decScanned .decode le_rfl hvalid)
    (runStep_decScanned_end s .decode len cap)
  have hreq := (decScanEnd_req _).trans (dataLen_decScanned s .decode len cap)
  rw [← dataLen_decScanned s .decode len cap] at hroom
  have hregs := decScanEnd_of_le_cap rfl hroom
  rw [hregs] at hinv hreq ⊢
  exact ⟨rfl, rfl, hinv, rfl, rfl, hreq, ⟨rfl, rfl, rfl, rfl, rfl, rfl⟩, fun _ _ => rfl, rfl⟩

theorem decRemaining_run {r : DecRegs W} (h : r.phase = .run) :
    decRemaining r = r.len.toNat - r.inIdx.toNat + 1 := by
  simp [decRemaining, h]

/-- A RUN step goes on with the pass: it raises nothing, reads one code unit, and stores below `REQ` only (R115, R121). -/
theorem InRunPass.next (h : InRunPass s len n v) (hn : n < len.toNat) :
    ∃ u : Codec W, runStep .dec v = .next ⟨W, u⟩ ∧ InRunPass s len (n + 1) u := by
  have hstate := (v.busy_iff .dec).1 h.busy
  have hi : v.dec.inIdx.toNat < v.dec.len.toNat := by rwa [h.inIdx_eq, h.len_eq]
  obtain ⟨hregs, hlen, -, -, hreq, hstatus, hphase, hcount, haddr⟩ :=
    decRun_inv h.inv (input_length ..) hstate h.phase hi (input_getD v .decIbuf hi).symm
  have hstep := runStep_run (decSelect_of (k := .run) ⟨h.phase, hi⟩)
  have hinv := decRunStep_decInv h.busy h.inv hstep
  have hle := hregs.inIdx_le
  have hread := h.inIdx_eq
  rw [hlen] at hle
  rw [decRemaining_run hphase, decRemaining_run h.phase, hlen] at hcount
  refine ⟨_, hstep, ?_, by simpa using hphase, hinv, by simpa using hlen.trans h.len_eq, ?_, ?_,
    h.outside.trans (runStep_sameOutside hstep), fun a ha => ?_, (runStep_turns hstep).trans h.turns⟩
  · simpa [Codec.busy, Codec.status, hstatus] using hstate
  · rw [Codec.applyWrite_dec, Codec.withDec_dec]
    omega
  · rw [Codec.applyWrite_dec, Codec.withDec_dec, hreq, h.req_eq]
  · exact (sameCellsExcept_applyWrite (touched := (· < v.dec.req.toNat)) (v.withDec_readCell _ _) haddr a
      (by rwa [h.req_eq])).trans (h.cells a ha)

/-- In the RUN pass the step selected is the one of R126: a RUN while code units are left, and then RUN_END. -/
theorem InRunPass.selects (h : InRunPass s len n v) (hn : n ≤ len.toNat) :
    decSelect v.dec = some (decStepAt len.toNat (len.toNat + 1 + n)) := by
  obtain hlt | rfl := hn.lt_or_eq
  · rw [decStepAt, if_neg (by omega), if_neg (by omega), if_pos (by omega)]
    exact decSelect_of ⟨h.phase, by rwa [h.inIdx_eq, h.len_eq]⟩
  · rw [decStepAt, if_neg (by omega), if_neg (by omega), if_neg (by omega)]
    exact decSelect_of ⟨h.phase, BitVec.eq_of_toNat_eq (by rw [h.inIdx_eq, h.len_eq])⟩

/-- After the SCAN pass, SCAN_END and `n` RUN steps DEC is in the RUN pass, with `n` code units read. -/
theorem runBlock_run (hn : n ≤ len.toNat) (hvalid : allValid (s.input .decIbuf len.toNat))
    (hroom : dataLenOf (s.input .decIbuf len.toNat) ≤ cap.toNat) :
    ∃ u : Codec W, (∀ m, runBlock .dec (len.toNat + 1 + n + m) (s.withDec (decStart .decode len cap)) = runBlock .dec m u) ∧
      InRunPass s len n u := by
  induction n with
  | zero =>
    refine ⟨_, fun m => ?_, inRunPass_decScanEnd hvalid hroom⟩
    rw [Nat.add_zero, Nat.add_assoc, Nat.add_comm 1 m, runBlock_scan le_rfl hvalid,
      runBlock_succ m (busy_decScanned ..) (runStep_decScanned_end ..)]
  | succ n ih =>
    obtain ⟨v, hrun, hpass⟩ := ih (Nat.le_of_succ_le hn)
    obtain ⟨u, hstep, hnext⟩ := hpass.next hn
    exact ⟨u, fun m => by rw [← Nat.add_assoc, Nat.add_assoc _ 1 m, Nat.add_comm 1 m, hrun, runBlock_succ m hpass.busy hstep],
      hnext⟩

theorem InRunPass.input_eq (h : InRunPass s len n v) : v.input .decIbuf v.dec.len.toNat = s.input .decIbuf len.toNat := by
  obtain ⟨-, hibuf, -⟩ := h.outside
  rw [h.len_eq, input_congr (sp := .decIbuf) hibuf]

/-- With every code unit read, the next step is RUN_END, and `OUT_IDX` is the data length of the text (R120, R122). -/
theorem InRunPass.last (h : InRunPass s len len.toNat v) :
    runStep .dec v = .next ⟨W, v.withDec (decRunEnd v.dec)⟩ ∧
      v.dec.outIdx.toNat = dataLenOf (s.input .decIbuf len.toNat) := by
  have hi : v.dec.inIdx = v.dec.len := BitVec.eq_of_toNat_eq (by rw [h.inIdx_eq, h.len_eq])
  obtain ⟨-, -, -, hout, -⟩ := decRunEnd_inv h.inv (input_length ..) ((v.busy_iff .dec).1 h.busy) h.phase hi
  exact ⟨runStep_runEnd (decSelect_of ⟨h.phase, hi⟩), hout.trans h.req_eq⟩

/-- With every code unit read, DEC's output holds the bytes of R111 (R121, R122). -/
theorem InRunPass.bytes (h : InRunPass s len len.toNat v) :
    decRef (s.input .decIbuf len.toNat) = some (v.cells .decObuf (dataLenOf (s.input .decIbuf len.toNat))) := by
  have hrun := h.inv.running ((v.busy_iff .dec).1 h.busy) h.phase
  have hvalid := hrun.valid
  have hwritten := hrun.written
  rw [h.input_eq] at hvalid hwritten
  rw [(decoderLoopIsTheBitStream _).1 hvalid, Codec.cells]
  exact congrArg some (List.map_congr_left fun m hm => (hwritten m (h.last.2 ▸ List.mem_range.1 hm)).symm)

end RunPass

/-- Settles O29: DEC goes through the SCAN pass (`runBlock_scan_busy`) and the RUN pass (`runBlock_run`), at whose end the bytes
are written (`InRunPass.bytes`); the last step is RUN_END (`InRunPass.last`). -/
theorem decodeRunsToItsResult : Obligations.DecodeRunsToItsResult := by
  intro W s len cap hb hvalid hroom
  obtain ⟨v, hrun, hpass⟩ := runBlock_run le_rfl hvalid hroom
  obtain ⟨hend, hout⟩ := hpass.last
  refine ⟨s.withDec (decStart .decode len cap), v.withDec (decRunEnd v.dec), exec_dec_fields rfl hb rfl rfl, fun k hk => ?_, ?_,
    rfl, rfl, (count_toNat _).trans hout, hpass.bytes, hpass.cells, hpass.outside, hpass.turns⟩
  · obtain hscan | hscanned := Nat.lt_or_ge k (len.toNat + 1)
    · have hscan := Nat.le_of_lt_succ hscan
      exact runBlock_scan_busy hscan (allValid_input_of_le hscan hvalid)
    · obtain ⟨n, rfl⟩ := Nat.exists_eq_add_of_le hscanned
      have hn : n ≤ len.toNat := by omega
      obtain ⟨u, hrunU, hpassU⟩ := runBlock_run hn hvalid hroom
      exact ⟨u, hrunU 0, hpassU.busy, hpassU.selects hn⟩
  · rw [show 2 * len.toNat + 2 = len.toNat + 1 + len.toNat + 1 by omega, hrun 1, runBlock_succ 0 hpass.busy hend]
    rfl

/-! ### The round trip -/

/-- The bits of a number read off the stream are those of the stream, oldest bit highest (R66). -/
theorem testBit_bitsVal (bit : Nat → Bool) (p : Nat) {n i : Nat} (h : i < n) :
    (bitsVal bit p n).testBit (n - 1 - i) = bit (p + i) := by
  induction n with
  | zero => omega
  | succ n ih =>
    have hhalf : bitsVal bit p (n + 1) / 2 = bitsVal bit p n := by
      rw [bitsVal]
      have := Bool.toNat_le (bit (p + n))
      omega
    obtain hlt | rfl := Nat.lt_succ_iff_lt_or_eq.1 h
    · rw [show n + 1 - 1 - i = (n - 1 - i) + 1 by omega, Nat.testBit_succ, hhalf, ih hlt]
    · rw [show i + 1 - 1 - i = 0 by omega, bitsVal, Nat.testBit_zero]
      cases bit (p + i) <;> simp

/-- The symbol values that the encoder makes of a byte sequence (R66). -/
def encSymbols (bs : List Byte) : List SymVal := (List.range (enclen bs.length)).map (streamSymbol bs)

/-- The stream of these symbol values is the stream of the bytes, as far as the symbols go. -/
theorem symBit_encSymbols (bs : List Byte) {p : Nat} (h : p < 5 * enclen bs.length) :
    symBit (encSymbols bs) p = byteBit bs p := by
  have hsym : (encSymbols bs).getD (p / 5) 0 = streamSymbol bs (p / 5) := by
    simp [encSymbols, List.getD_eq_getElem?_getD, show p / 5 < enclen bs.length by omega]
  have hbits := testBit_bitsVal (byteBit bs) (5 * (p / 5)) (Nat.mod_lt p (by decide : 0 < 5))
  rw [symBit, hsym, streamSymbol, BitVec.getLsbD_ofNat, decide_eq_true (by omega), Bool.true_and, hbits, Nat.div_add_mod]

/-- Regrouped into bytes, these symbol values give the bytes back (R125). -/
theorem streamByte_encSymbols {bs : List Byte} {m : Nat} (h : m < bs.length) :
    streamByte (encSymbols bs) m = bs.getD m 0 := by
  have hceil := (enclen_ceil bs.length).1
  rw [streamByte, bitsVal_congr (bit' := byteBit bs) fun i hi => symBit_encSymbols bs (by omega), byteBit_byte,
    BitVec.ofNat_toNat, BitVec.setWidth_eq]

/-- The text of the encoder is valid, and its symbols are those of the bytes (R62, R91). -/
theorem encRef_symbols (bs : List Byte) : allValid (encRef bs) ∧ symValues (encRef bs) = encSymbols bs := by
  rw [encoderLoopIsTheBitStream]
  constructor
  · intro c hc
    obtain ⟨j, -, rfl⟩ := List.mem_map.1 hc
    rw [classify_alpha]
    nofun
  · simp [symValues, encSymbols, List.filterMap_map, classify_alpha]

/-- A text that is the encoder's but for `=` is valid and decodes to the bytes encoded (R125). -/
theorem decRef_of_filter_eq_encRef {cs bs : List Byte} (h : cs.filter (· != padChar) = encRef bs) :
    allValid cs ∧ dataLenOf cs = bs.length ∧ decRef cs = some bs := by
  obtain ⟨hvalidEnc, hsymEnc⟩ := encRef_symbols bs
  have hvalid : allValid cs := (allValid_filter_padChar cs).1 (h ▸ hvalidEnc)
  have hsym : symValues cs = encSymbols bs := by rw [← symValues_filter_padChar, h, hsymEnc]
  have hlen : dataLenOf cs = bs.length := by
    rw [dataLenOf, symCount, hsym, encSymbols, List.length_map, List.length_range, dataLen_enclen]
  have hbytes : (List.range bs.length).map (streamByte (encSymbols bs)) = bs := by
    refine List.ext_getElem (by simp) fun m _ hm => ?_
    rw [List.getElem_map, List.getElem_range, streamByte_encSymbols hm, List.getD_eq_getElem _ _ hm]
  refine ⟨hvalid, hlen, ?_⟩
  rw [(decoderLoopIsTheBitStream cs).1 hvalid, hlen, hsym, hbytes]

/-- Settles O35: ENCODE has written the text of R91 (`encodeRunsToItsResult`), which with any `=` decodes to the bytes it read
(`decRef_of_filter_eq_encRef`), and DECODE writes the bytes of R111 (`decodeRunsToItsResult`). -/
theorem roundTripThroughBothBlocks : Obligations.RoundTripThroughBothBlocks := by
  intro W s t u v len cap m cap' hencReady hencRoom hexec hrun hdecReady htext hdecRoom
  obtain ⟨tEnc, uEnc, hexecEnc, -, hrunEnc, -, -, -, -, -, hwritten, -⟩ := encodeRunsToItsResult W s len cap hencReady hencRoom
  cases hexec.symm.trans hexecEnc
  cases hrun.symm.trans hrunEnc
  obtain ⟨hvalid, hlen, hbytes⟩ := decRef_of_filter_eq_encRef (htext.trans hwritten)
  rw [input_length] at hlen
  obtain ⟨t', u', hexec', -, hrun', hdone, -, hresult, hdecoded, -⟩ :=
    decodeRunsToItsResult W v m cap' hdecReady hvalid (hlen.trans_le hdecRoom)
  rw [hbytes, hlen] at hdecoded
  exact ⟨t', u', hexec', hrun', hdone, hresult.trans hlen, (Option.some.inj hdecoded).symm⟩

end Sys2Proof.Machine

/-! Errors: what a raising step does, and the command after it (spec/60_exceptions.md). -/

namespace Sys2Proof.Machine

variable {W : Nat}

/-! ### Error entry -/

/-- No exception has the code of `NONE` (R74, R130). -/
theorem Exn.code_ne_noError (e : Exn) : e.code ≠ .noError := by
  cases e <;> decide

/-- A RUN that changes the status completes no byte (R115, R117, R118). -/
theorem decRun_store_of_status_ne {r : DecRegs W} {c : Byte} (h : (decRun r c).1.status ≠ r.status) :
    (decRun r c).2 = none := by
  cases hc : classify c with
  | invalid => rw [decRun_of_invalid hc]
  | pad => rw [decRun_of_pad hc]
  | sym v =>
    rw [decRun_of_sym hc] at h ⊢
    obtain hbits | hbits := Nat.lt_or_ge 5 r.bitsrem.toNat
    · rw [decRunSym_of_incomplete v hbits]
    · obtain hcap | hcap := Nat.lt_or_ge r.outIdx.toNat r.cap.toNat
      · rw [decRunSym_of_room v hbits hcap] at h
        exact absurd rfl h
      · rw [decRunSym_of_full v hbits hcap]

/-- A step of a `BUSY` DEC that ends in `ERROR` is an error entry and stores nothing (R133). -/
theorem decNext_raise {r : DecRegs W} {rdata : Byte} {k : DecStep} (hb : r.status.state = .busy)
    (herror : (decNext r rdata k).1.status.state = .error) :
    (∃ e, (decNext r rdata k).1.status = raise e) ∧ (decNext r rdata k).2 = none := by
  have hchanged : (decNext r rdata k).1.status ≠ r.status := fun h => by
    rw [h, hb] at herror
    cases herror
  cases k with
  | scan =>
    obtain ⟨hkept, -⟩ | hraise := decScan_transitions r rdata
    · exact absurd hkept hchanged
    · exact ⟨⟨_, hraise⟩, rfl⟩
  | scanEnd =>
    obtain ⟨-, hdone⟩ | ⟨-, hraise⟩ | ⟨-, hkept, -⟩ := decScanEnd_transitions r
    · cases hdone.symm.trans herror
    · exact ⟨⟨_, hraise⟩, rfl⟩
    · exact absurd hkept hchanged
  | run =>
    have hstore := decRun_store_of_status_ne hchanged
    obtain ⟨hkept, -⟩ | hraise | hraise := decRun_transitions r rdata
    · exact absurd hkept hchanged
    · exact ⟨⟨_, hraise⟩, hstore⟩
    · exact ⟨⟨_, hraise⟩, hstore⟩
  | runEnd => cases herror

/-- A running step that ends in `ERROR` is an error entry, and its write port shows no store. Only DEC has one (R105, R133). -/
theorem runStep_raise {b : Block} {s t : Codec W} (hb : s.busy b = true) (h : runStep b s = .next ⟨W, t⟩)
    (herror : (t.status b).state = .error) : (∃ e, t.status b = raise e) ∧ s.obPort b = none := by
  have hstate := (s.busy_iff b).1 hb
  cases b with
  | enc =>
    obtain ⟨k, -, ht⟩ := encRunStep_next h
    cases ht
    rw [Codec.status, Codec.applyWrite_enc, Codec.withEnc_enc] at herror
    obtain hbusy | hdone := encNext_transitions hstate _ k
    · cases hbusy.symm.trans herror
    · cases hdone.symm.trans herror
  | dec =>
    obtain ⟨k, hk, ht⟩ := decRunStep_next h
    cases ht
    rw [Codec.status, Codec.applyWrite_dec, Codec.withDec_dec] at herror ⊢
    rw [Codec.obPort_dec hb hk]
    exact decNext_raise hstate herror

/-- Settles O36: the step is an error entry that shows no store (`runStep_raise`), so no buffer changes
(`blockTurnStoresWhatThePortShows`), and the block is then ready with nothing to do (`blockTurn_idle`). -/
theorem raiseEndsTheOperation : Obligations.RaiseEndsTheOperation := by
  intro W s t b ts hb hts hstep herror
  have hrun : runStep b (s.withTurns ts) = .next ⟨W, t⟩ := by
    rw [← blockTurn_busy (by simpa using hb), ← step_block hts, hstep]
  obtain ⟨⟨e, hraise⟩, hport⟩ := runStep_raise (by simpa using hb) hrun herror
  rw [Codec.withTurns_obPort] at hport
  obtain ⟨-, hstored, -⟩ := blockTurnStoresWhatThePortShows W s t b ts hts hstep
  have hready : t.busy b = false := (t.not_busy_iff b).2 (by rw [herror]; decide)
  rw [hraise]
  refine ⟨rfl, e.code_ne_noError, hstored hport, fun ts' => ?_⟩
  rw [step_block (Codec.withTurns_turns _ _), blockTurn_idle (by simpa using hready) (by simp), Codec.withTurns_withTurns]

/-! ### The next command -/

/-- A well-formed ENCODE is accepted by a ready ENC: it runs, or raises again when `cap` is too small (R92, R138). -/
theorem exec_encode_status {s : Codec W} {len cap : Nat} (hwf : (Instr.encode len cap).wellFormed W = true)
    (hready : s.busy .enc = false) :
    ∃ t : Codec W, exec (.encode len cap) ⟨W, s⟩ = .next ⟨W, t⟩ ∧
      (t.status .enc = ⟨.busy, .noError, 0⟩ ∨
        cap < enclen len ∧ t.status .enc = ⟨.error, .insufficientOutputCapacity, 0⟩) := by
  obtain ⟨hlen, hcap⟩ := Instr.wellFormed_iff.1 hwf
  obtain ⟨l, rfl⟩ : ∃ l : Idx W, len = l.toNat := ⟨.ofNatLT len hlen, rfl⟩
  obtain ⟨c, rfl⟩ : ∃ c : Idx W, cap = c.toNat := ⟨.ofNatLT cap hcap, rfl⟩
  refine ⟨_, exec_enc_fields rfl hready rfl rfl, ?_⟩
  obtain hsmall | hroom := Nat.lt_or_ge c.toNat (enclen l.toNat)
  · exact .inr ⟨hsmall, encStart_encode_status_of_lt hsmall⟩
  · exact .inl (encStart_encode_status_of_le hroom)

/-- Settles O37: a block in `ERROR` is not `BUSY`, so it accepts the command (`exec_enc`, `exec_dec`); only the accepting step
of ENCODE can raise (`exec_encode_status`). -/
theorem nextCommandLeavesTheErrorState : Obligations.NextCommandLeavesTheErrorState := by
  intro W s i hwf herror
  have hstate : (s.status i.block).state ≠ .busy := by
    rw [herror]
    decide
  have hready := (s.not_busy_iff i.block).2 hstate
  refine ⟨(s.cmdReady_iff i.block).2 hstate, ?_⟩
  cases i with
  | enclen len cap => exact ⟨_, exec_enc rfl hready, .inl ⟨rfl, nofun⟩⟩
  | datalen len cap => exact ⟨_, exec_dec rfl hready, .inl ⟨rfl, nofun⟩⟩
  | decode len cap => exact ⟨_, exec_dec rfl hready, .inl ⟨rfl, nofun⟩⟩
  | encode len cap =>
    obtain ⟨t, hexec, hstarted | ⟨hsmall, hraised⟩⟩ := exec_encode_status hwf hready
    · exact ⟨t, hexec, .inl (by rw [Instr.block, hstarted]; exact ⟨rfl, nofun⟩)⟩
    · exact ⟨t, hexec, .inr ⟨len, cap, rfl, hsmall, hraised⟩⟩

end Sys2Proof.Machine

/-! Reset of a block, commands offered to a `BUSY` block, and how long an operation keeps its block `BUSY`
(spec/70_reset_and_hazards.md). -/

namespace Sys2Proof.Machine

variable {W : Nat}

/-! ### How many steps an operation takes -/

/-- A command that is accepted in `s`, keeps its block `BUSY` for exactly `n` steps, those of DEC in the order of R126, and is
then over (R162). -/
def CompletesAfter (s : Codec W) (i : Instr) (n : Nat) : Prop :=
  ∃ t u : Codec W, exec i ⟨W, s⟩ = .next ⟨W, t⟩ ∧
    (∀ k, k < n → ∃ v : Codec W, runBlock i.block k t = .next ⟨W, v⟩ ∧ v.busy i.block = true ∧
      (i.block = .dec → decSelect v.dec = some (decStepAt i.len k))) ∧
    runBlock i.block n t = .next ⟨W, u⟩ ∧ u.busy i.block = false

/-- A command that leaves its block ready takes no step. -/
theorem completesAfter_zero {s t : Codec W} {i : Instr} (hexec : exec i ⟨W, s⟩ = .next ⟨W, t⟩)
    (hready : t.busy i.block = false) : CompletesAfter s i 0 :=
  ⟨t, t, hexec, fun _ hk => absurd hk (Nat.not_lt_zero _), runBlock_zero _ t, hready⟩

/-- A command of DEC that is `BUSY` after each of `n` steps, with the step of R126 selected, and not after the next one. -/
theorem completesAfter_dec {s t u : Codec W} {i : Instr} {n : Nat} (hblock : i.block = .dec)
    (hexec : exec i ⟨W, s⟩ = .next ⟨W, t⟩)
    (hbusy : ∀ k, k ≤ n → ∃ v : Codec W, runBlock .dec k t = .next ⟨W, v⟩ ∧ v.busy .dec = true ∧
      decSelect v.dec = some (decStepAt i.len k))
    (hrun : runBlock .dec (n + 1) t = .next ⟨W, u⟩) (hstate : u.dec.status.state ≠ .busy) : CompletesAfter s i (n + 1) := by
  rw [CompletesAfter, hblock]
  refine ⟨t, u, hexec, fun k hk => ?_, hrun, (u.not_busy_iff .dec).2 hstate⟩
  obtain ⟨v, hrunv, hbusyv, hselect⟩ := hbusy k (Nat.le_of_lt_succ hk)
  exact ⟨v, hrunv, hbusyv, fun _ => hselect⟩

/-- A command of the width is one of the four, with `W`-bit fields (R70, R71, R72). -/
theorem wellFormed_cases {i : Instr} (h : i.wellFormed W = true) :
    ∃ len cap : Idx W, i = .enclen len.toNat cap.toNat ∨ i = .encode len.toNat cap.toNat ∨
      i = .datalen len.toNat cap.toNat ∨ i = .decode len.toNat cap.toNat := by
  obtain ⟨hlen, hcap⟩ := Instr.wellFormed_iff.1 h
  refine ⟨.ofNatLT i.len hlen, .ofNatLT i.cap hcap, ?_⟩
  cases i with
  | enclen len cap => exact .inl rfl
  | encode len cap => exact .inr (.inl rfl)
  | datalen len cap => exact .inr (.inr (.inl rfl))
  | decode len cap => exact .inr (.inr (.inr rfl))

/-- What `firstInvalid` finds in a buffer is the first `INVALID` cell of it. -/
theorem firstInvalid_input {s : Codec W} {sp : Space} {n p : Nat} (h : firstInvalid (s.input sp n) = some p) :
    p < n ∧ allValid (s.input sp p) ∧ classify (s.readCell sp p) = .invalid := by
  obtain ⟨hp, hinvalid, hbefore⟩ := firstInvalid_eq_some h
  rw [input_length] at hp
  rw [input_getD s sp hp] at hinvalid
  refine ⟨hp, allValid_input.2 fun j hj => ?_, hinvalid⟩
  rw [← input_getD s sp (hj.trans hp)]
  exact hbefore j hj

section Operations

variable {s : Codec W} {len cap : Idx W}

/-- ENCLEN is over in its accepting step (R80). -/
theorem enclen_completesAfter (hb : s.busy .enc = false) : CompletesAfter s (.enclen len.toNat cap.toNat) 0 :=
  completesAfter_zero (exec_enc_fields rfl hb rfl rfl) rfl

/-- ENCODE is over in its accepting step when its `cap` is too small (R92), and takes the steps of R103 otherwise. -/
theorem encode_completesAfter (hb : s.busy .enc = false) :
    CompletesAfter s (.encode len.toNat cap.toNat)
      (if cap.toNat < enclen len.toNat then 0 else len.toNat + enclen len.toNat + 1) := by
  split
  case isTrue hsmall =>
    refine completesAfter_zero (exec_enc_fields rfl hb rfl rfl) ((Codec.not_busy_iff _ .enc).2 ?_)
    exact (congrArg Status.state (encStart_encode_status_of_lt hsmall)).trans_ne nofun
  case isFalse hroom =>
    obtain ⟨t, u, hexec, hbusy, hrun, -, -, hdone, -⟩ := encodeRunsToItsResult W s len cap hb (Nat.le_of_not_lt hroom)
    refine ⟨t, u, hexec, fun k hk => ?_, hrun, (u.not_busy_iff .enc).2 (hdone.trans_ne nofun)⟩
    obtain ⟨v, hrunv, hbusyv, -⟩ := hbusy k (Nat.le_of_lt_succ hk)
    exact ⟨v, hrunv, hbusyv, nofun⟩

/-- DATALEN and DECODE are over with the SCAN of the first `INVALID` code unit, whatever their `cap` (R126). -/
theorem completesAfter_of_firstInvalid {i : Instr} {p : Nat} (hblock : i.block = .dec) (hlen : i.len = len.toNat)
    (hcap : i.cap = cap.toNat) (hb : s.busy .dec = false) (hp : firstInvalid (s.input .decIbuf len.toNat) = some p) :
    CompletesAfter s i (p + 1) := by
  obtain ⟨hlt, hvalid, hinvalid⟩ := firstInvalid_input hp
  refine completesAfter_dec hblock (exec_dec_fields hblock hb hlen hcap) (fun k hk => ?_)
    (runBlock_scan_raise hlt hvalid hinvalid) nofun
  rw [hlen]
  exact runBlock_scan_busy (hk.trans hlt.le) (allValid_input_of_le hk hvalid)

/-- DATALEN of a valid text takes a SCAN for each code unit and SCAN_END (R126). -/
theorem datalen_completesAfter (hb : s.busy .dec = false) (hvalid : allValid (s.input .decIbuf len.toNat)) :
    CompletesAfter s (.datalen len.toNat cap.toNat) (len.toNat + 1) := by
  obtain ⟨t, u, hexec, hbusy, hrun, hdone, -⟩ := datalenRunsToItsResult W s len cap hb hvalid
  exact completesAfter_dec rfl hexec hbusy hrun (hdone.trans_ne nofun)

/-- DECODE of a valid text is over in SCAN_END when its `cap` is too small, and makes the RUN pass otherwise (R126). -/
theorem decode_completesAfter (hb : s.busy .dec = false) (hvalid : allValid (s.input .decIbuf len.toNat)) :
    CompletesAfter s (.decode len.toNat cap.toNat)
      (if cap.toNat < dataLenOf (s.input .decIbuf len.toNat) then len.toNat + 1 else 2 * len.toNat + 2) := by
  split
  case isTrue hsmall =>
    obtain ⟨t, u, hexec, hbusy, hrun, hraised, -⟩ := tooSmallAnOutputFailsAtomically W s len cap hb hvalid hsmall
    exact completesAfter_dec rfl hexec hbusy hrun ((congrArg Status.state hraised).trans_ne nofun)
  case isFalse hroom =>
    obtain ⟨t, u, hexec, hbusy, hrun, hdone, -⟩ := decodeRunsToItsResult W s len cap hb hvalid (Nat.le_of_not_lt hroom)
    exact completesAfter_dec rfl hexec hbusy hrun (hdone.trans_ne nofun)

end Operations

/-- Settles O54: one lemma for each operation and outcome. A DEC operation over an `INVALID` code unit is
`completesAfter_of_firstInvalid`; over a valid text it is `datalen_completesAfter` or `decode_completesAfter`. -/
theorem everyOperationTakesItsStepCount : Obligations.EveryOperationTakesItsStepCount := by
  intro W s i hwf hb
  change CompletesAfter s i (stepCount i (s.input (ibufOf i.block) i.len))
  obtain ⟨len, cap, rfl | rfl | rfl | rfl⟩ := wellFormed_cases hwf
  · exact enclen_completesAfter hb
  · exact encode_completesAfter hb
  · rw [stepCount]
    split
    next p hp => exact completesAfter_of_firstInvalid (cap := cap) rfl rfl rfl hb hp
    next hnone => exact datalen_completesAfter hb (firstInvalid_eq_none.1 hnone)
  · rw [stepCount]
    split
    next p hp => exact completesAfter_of_firstInvalid (cap := cap) rfl rfl rfl hb hp
    next hnone => exact decode_completesAfter hb (firstInvalid_eq_none.1 hnone)

/-! ### A `BUSY` block always has a step -/

/-- Every command offered answers a next state: it is accepted, or it changes nothing. -/
theorem exec_answers (i : Instr) (s : Codec W) : ∃ t : Codec W, exec i ⟨W, s⟩ = .next ⟨W, t⟩ := by
  cases hb : s.busy i.block with
  | true => exact ⟨_, exec_busy hb⟩
  | false =>
    cases hi : i.block <;> rw [hi] at hb
    · exact ⟨_, exec_enc hi hb⟩
    · exact ⟨_, exec_dec hi hb⟩

/-- With `IN_IDX` at most `LEN`, as the invariant has it, a row of R93 or R128 is enabled. -/
theorem Codec.Inv.runStep_answers {s : Codec W} (h : s.Inv) (b : Block) : ∃ t : Codec W, runStep b s = .next ⟨W, t⟩ := by
  cases b with
  | enc =>
    obtain ⟨k, hk⟩ := encSelect_isSome h.enc.inIdx_le
    exact ⟨_, runStep_enc hk⟩
  | dec =>
    obtain ⟨k, hk⟩ := decSelect_isSome h.dec.inIdx_le
    exact ⟨_, by rw [runStep, decRunStep, hk]⟩

theorem Codec.Inv.blockTurn_answers {s : Codec W} (h : s.Inv) (b : Block) :
    ∃ t : Codec W, blockTurn b s = .next ⟨W, t⟩ := by
  cases hb : s.busy b with
  | true => exact blockTurn_busy hb ▸ h.runStep_answers b
  | false =>
    cases hc : s.cmd b with
    | none => exact ⟨s, blockTurn_idle hb hc⟩
    | some w => exact blockTurn_ready hb hc ▸ exec_answers _ _

/-- A move of the host is made or refused, and never a fault. -/
theorem hostMove_ne_fault (m : HostMove W) (s : Codec W) (f : Fault) : hostMove m s ≠ .fault f := by
  cases m with
  | drive b w => exact nofun
  | release b => exact nofun
  | readStatus b => exact nofun
  | reset b => exact nofun
  | write sp i v => rw [hostMove]; split <;> exact nofun
  | read sp i => rw [hostMove]; split <;> exact nofun
  | copy src i dst j =>
    rw [hostMove]
    split
    · split <;> exact nofun
    · exact nofun

theorem ne_fault_of_answers {o : Outcome} (h : ∃ t : Codec W, o = .next ⟨W, t⟩) (f : Fault) : o ≠ .fault f := by
  obtain ⟨t, rfl⟩ := h
  exact nofun

/-- Under the invariant no step of the machine faults, whoever has the turn. -/
theorem Codec.Inv.step_ne_fault {s : Codec W} (h : s.Inv) (f : Fault) : step ⟨W, s⟩ ≠ .fault f := by
  have hblock := fun b => ne_fault_of_answers (h.blockTurn_answers b) f
  cases hts : s.turns with
  | nil =>
    rw [step_free hts]
    split
    · exact hblock .enc
    · split
      · exact hblock .dec
      · exact nofun
  | cons turn ts =>
    cases turn with
    | block b =>
      rw [step_block hts]
      exact ne_fault_of_answers ((h.withTurns ts).blockTurn_answers b) f
    | host m =>
      rw [step_host hts]
      exact hostMove_ne_fault m _ f
    | wait b =>
      cases hb : s.busy b with
      | true =>
        rw [step_wait_busy hts hb]
        exact ne_fault_of_answers (h.runStep_answers b) f
      | false =>
        rw [step_wait_ready hts hb]
        exact nofun

/-- Settles O51: no turn faults (`Codec.Inv.step_ne_fault`), and a block with the turn answers a next state
(`Codec.Inv.blockTurn_answers`). -/
theorem busyBlockAlwaysHasAStep : Obligations.BusyBlockAlwaysHasAStep := by
  refine fun W s hinv => ⟨hinv.step_ne_fault, fun b ts _ hts => ?_⟩
  obtain ⟨t, hstep⟩ := (hinv.withTurns ts).blockTurn_answers b
  exact ⟨_, (step_block hts).trans hstep⟩

/-! ### A command offered to a `BUSY` block -/

theorem Codec.applyWrite_setCmd (s : Codec W) (sp : Space) (w : Option (ObWrite W)) (b : Block) (c : Option (CmdWord W)) :
    (s.applyWrite sp w).setCmd b c = (s.setCmd b c).applyWrite sp w := by
  cases w <;> cases sp <;> cases b <;> rfl

theorem Codec.withEnc_setCmd (s : Codec W) (r : EncRegs W) (b : Block) (c : Option (CmdWord W)) :
    (s.withEnc r).setCmd b c = (s.setCmd b c).withEnc r := by
  cases b <;> rfl

theorem Codec.withDec_setCmd (s : Codec W) (r : DecRegs W) (b : Block) (c : Option (CmdWord W)) :
    (s.withDec r).setCmd b c = (s.setCmd b c).withDec r := by
  cases b <;> rfl

/-- A running step does the same whatever is held on a command port (R155). -/
theorem runStep_setCmd {s t : Codec W} {b : Block} (b' : Block) (c : Option (CmdWord W)) (h : runStep b s = .next ⟨W, t⟩) :
    runStep b (s.setCmd b' c) = .next ⟨W, t.setCmd b' c⟩ := by
  cases b with
  | enc =>
    obtain ⟨k, hk, ht⟩ := encRunStep_next h
    cases ht
    simp only [runStep, encRunStep, Codec.setCmd_enc, Codec.setCmd_ibRdata, hk, Codec.applyWrite_setCmd,
      Codec.withEnc_setCmd]
  | dec =>
    obtain ⟨k, hk, ht⟩ := decRunStep_next h
    cases ht
    simp only [runStep, decRunStep, Codec.setCmd_dec, Codec.setCmd_ibRdata, hk, Codec.applyWrite_setCmd,
      Codec.withDec_setCmd]

/-- What a running step leaves alone includes the words on both command ports. -/
theorem sameOutside.cmd_eq {b : Block} {s t : Codec W} (h : sameOutside b s t) (b' : Block) : t.cmd b' = s.cmd b' := by
  obtain ⟨henc, hdec⟩ : t.encCmd = s.encCmd ∧ t.decCmd = s.decCmd := by
    cases b <;> obtain ⟨-, -, -, -, hports⟩ := h <;> exact hports
  cases b' with
  | enc => exact henc
  | dec => exact hdec

/-- A step in which a `BUSY` block has the turn is the running step of that block (R22). -/
theorem step_busy {s : Codec W} {b : Block} {ts : List (Turn W)} (hts : s.turns = .block b :: ts) (hb : s.busy b = true) :
    step ⟨W, s⟩ = runStep b (s.withTurns ts) :=
  (step_block hts).trans (blockTurn_busy (by simpa using hb))

theorem Codec.setCmd_withTurns (s : Codec W) (b : Block) (c : Option (CmdWord W)) (ts : List (Turn W)) :
    (s.setCmd b c).withTurns ts = (s.withTurns ts).setCmd b c := by
  cases b <;> rfl

/-- Settles O17: an offer to a `BUSY` block is `exec_busy`; its turn is its running step, which neither uses
(`runStep_setCmd`) nor changes (`runStep_sameOutside`) what is held on the port. -/
theorem busyBlockTakesNoCommand : Obligations.BusyBlockTakesNoCommand := by
  refine ⟨fun W i s hb => exec_busy hb, fun W s t b ts c hb hts hstep => ?_⟩
  rw [step_busy hts hb] at hstep
  refine ⟨(sameOutside_withTurns.1 (runStep_sameOutside hstep)).cmd_eq b, ?_⟩
  rw [step_busy (by simpa using hts) (by simpa using hb), Codec.setCmd_withTurns, runStep_setCmd b c hstep]

/-! ### Reset of a block -/

/-- A reset touches nothing but the registers of its block (R151). -/
theorem Codec.resetBlock_frame (s : Codec W) (b : Block) :
    (s.resetBlock b).turns = s.turns ∧ sameBuffers s (s.resetBlock b) ∧ sameOutside b s (s.resetBlock b) := by
  cases b with
  | enc => exact ⟨rfl, s.withEnc_buf _, rfl, rfl, rfl, rfl, rfl, rfl⟩
  | dec => exact ⟨rfl, s.withDec_buf _, rfl, rfl, rfl, rfl, rfl, rfl⟩

@[simp] theorem Codec.resetBlock_status (s : Codec W) (b : Block) : (s.resetBlock b).status b = Status.reset W := by
  cases b <;> rfl

/-- Settles O41: the host's move is the reset of the block, which touches nothing else (`Codec.resetBlock_frame`) and leaves
its status as R32 gives it (`Codec.resetBlock_status`). -/
theorem resetOfABlock : Obligations.ResetOfABlock := by
  intro W s b ts hts
  obtain ⟨hturns, hbuf, hout⟩ := (s.withTurns ts).resetBlock_frame b
  have hstatus := (s.withTurns ts).resetBlock_status b
  refine ⟨_, step_host hts, hturns, fun sp => by simpa using hbuf sp, sameOutside_withTurns.1 hout, ?_, ?_, hstatus, ?_⟩
  · rintro rfl
    rfl
  · rintro rfl
    rfl
  · exact (Codec.cmdReady_iff _ b).2 (by rw [hstatus]; exact nofun)

end Sys2Proof.Machine
